-- ==== Sys2Proof/Word.lean ====
section
/-!
DEFINITION. The storage element. A command or response word is the natural number on its wires, bit 0
least significant (00_scope.md R6): its width depends on the instance's parameter `OPW`, so the width is
stated where it matters (`Params.cwWidth`, `Params.rwWidth`) and is no part of a type.
-/
namespace Sys2Proof

/-- One storage element, `ELEM_W = 8` bits (00_scope.md R5; 93_implementation_defined.md G1). -/
abbrev Byte := BitVec 8

end Sys2Proof
end

