-- ==== Sys2Proof/Config.lean ====
section
/-!
DEFINITION. What an instance of the block fixes (its two parameters, 00_scope.md R5) and the free
values that stand for what the spec leaves unspecified (10_state.md R32, 40_init_destroy.md R101).
-/
namespace Sys2Proof

/-- The two open parameters of an instance (00_scope.md R5, 92_eei_decisions.md D3 and D4). -/
structure Params where
  /-- `OPW`: the width in bits of the operand `arg` and of the response field `val`. -/
  opw : Nat
  /-- `MAX_LOG2`: the base-2 logarithm of the physical storage depth. -/
  maxLog2 : Nat
deriving DecidableEq, Repr

namespace Params

/-- The reference values `OPW = 32`, `MAX_LOG2 = 30` (00_scope.md R5). -/
def reference : Params := { opw := 32, maxLog2 := 30 }

/-- What R5 asks of the parameters: `OPW >= 2` and `0 <= MAX_LOG2 <= OPW - 2`. -/
abbrev Ok (p : Params) : Prop := p.maxLog2 + 2 ≤ p.opw

/-- `MAX_CAPACITY = 2^MAX_LOG2`, the physical depth of the storage (R5). -/
def maxCapacity (p : Params) : Nat := 2 ^ p.maxLog2

/-- The physical width of the `capacity` register (10_state.md R21). -/
def capacityWidth (p : Params) : Nat := p.maxLog2 + 1

/-- The physical width of each cursor register (10_state.md R23 and R24). -/
def cursorWidth (p : Params) : Nat := max p.maxLog2 1

/-- The width of a command word, `OPW + 12` bits (30_encoding.md R71). -/
def cwWidth (p : Params) : Nat := p.opw + 12

/-- The width of a response word, `OPW + 3` bits (30_encoding.md R72). -/
def rwWidth (p : Params) : Nat := p.opw + 3

end Params

/-- FREE VALUE (notes/assumptions/4.md): the byte an unspecified storage slot holds, by draw and slot
(10_state.md R32, 40_init_destroy.md R101; treatment 'any value', 93_implementation_defined.md U2, U5). -/
opaque Config.freeByte : Nat → Nat → Byte

/-- FREE VALUE (notes/assumptions/3.md): what `capacity` holds after a reset cycle (R32, R170). -/
opaque Config.freeCapacity : Nat → Nat

/-- FREE VALUE (notes/assumptions/3.md): what `rd_ptr` holds after a reset cycle (R32, R170). -/
opaque Config.freeReadPtr : Nat → Nat

/-- FREE VALUE (notes/assumptions/3.md): what `wr_ptr` holds after a reset cycle (R32, R170). -/
opaque Config.freeWritePtr : Nat → Nat

end Sys2Proof
end

