-- ==== Sys2Proof/Syntax.lean ====
section
/-!
DEFINITION. The nine instructions, one constructor per row of spec/opcode_table.json, with their
operands read as 30_encoding.md R75 reads them (R81).
-/
namespace Sys2Proof

/-- A decoded command (30_encoding.md R81). `c` and `pos` are the signed integers of `arg`, `v` is the
byte of `data`; a field that an instruction ignores (R76) is no argument of it. -/
inductive Instr where
  /-- IDLE: the cycle with no operation (45_idle.md R145). -/
  | idle
  /-- INIT `c`: the source's Initialize(capacity) (40_init_destroy.md R100). -/
  | init (c : Int)
  /-- DESTROY: the source's Destroy() (40_init_destroy.md R101). -/
  | destroy
  /-- RDAT `pos`: the source's ReadAt(pos) (41_positional_access.md R110). -/
  | rdat (pos : Int)
  /-- WRAT `pos, v`: the source's WriteAt(pos, value) (41_positional_access.md R111). -/
  | wrat (pos : Int) (v : Byte)
  /-- CLEAR: the source's Clear() (42_clear.md R120). -/
  | clear
  /-- LEN: the source's Length() (43_length.md R125). -/
  | len
  /-- ENQ `v`: the source's Enqueue(value) (44_fifo_protocol.md R130). -/
  | enq (v : Byte)
  /-- DEQ: the source's Dequeue() (44_fifo_protocol.md R131). -/
  | deq
deriving DecidableEq, Repr

/-- The mnemonic of 30_encoding.md R73. -/
def Instr.mnemonic : Instr → String
  | .idle => "IDLE"
  | .init _ => "INIT"
  | .destroy => "DESTROY"
  | .rdat _ => "RDAT"
  | .wrat _ _ => "WRAT"
  | .clear => "CLEAR"
  | .len => "LEN"
  | .enq _ => "ENQ"
  | .deq => "DEQ"

end Sys2Proof
end

