-- ==== Sys2Proof/WellFormed.lean ====
section
/-!
DEFINITION. When an instruction's operands can be written in a command word: the operand ranges of
30_encoding.md R71 and R79.
-/
namespace Sys2Proof

/-- `x` is an `OPW`-bit two's-complement integer: `-2^(OPW-1) <= x < 2^(OPW-1)` (R71, R79). -/
abbrev signedRange (opw : Nat) (x : Int) : Prop := -(2 ^ (opw - 1) : Int) ≤ x ∧ x < (2 ^ (opw - 1) : Int)

/-- The operand check of each instruction at operand width `OPW` (R79). A byte operand is in range by
its type. -/
def Instr.wellFormed (opw : Nat) : Instr → Bool
  | .idle => true
  | .init c => decide (signedRange opw c)
  | .destroy => true
  | .rdat pos => decide (signedRange opw pos)
  | .wrat pos _ => decide (signedRange opw pos)
  | .clear => true
  | .len => true
  | .enq _ => true
  | .deq => true

end Sys2Proof
end

