-- ==== Sys2Proof/Decode.lean ====
section
/-!
DEFINITION. Command words: the decoder, total on every word (30_encoding.md R71, R73, R75, R81), then
the encoder of R79 and the opcode table of R73 as rows.
-/
namespace Sys2Proof

/-- The field of `width` bits of `w` whose lowest bit is bit `lo`, read unsigned: `w[lo+width-1 : lo]`
(00_scope.md R6). -/
def bits (w lo width : Nat) : Nat := w / 2 ^ lo % 2 ^ width

/-- `sint_N(f)`: the two's-complement reading of an `N`-bit field (00_scope.md R6). -/
def sint (n f : Nat) : Int := if f < 2 ^ (n - 1) then (f : Int) else (f : Int) - 2 ^ n

/-- `valid`, `CW[0]` (R71). -/
def cwValid (w : Nat) : Nat := bits w 0 1

/-- `op`, `CW[3:1]` (R71). -/
def cwOp (w : Nat) : Nat := bits w 1 3

/-- `data`, `CW[11:4]` (R71). -/
def cwData (w : Nat) : Byte := BitVec.ofNat 8 (bits w 4 8)

/-- `arg`, `CW[OPW+11:12]`, the whole field, unsigned (R71). -/
def cwArg (opw : Nat) (w : Nat) : Nat := bits w 12 opw

/-- The integer operand of a command: `sint_OPW(arg)` (R75). -/
def cwInt (opw : Nat) (w : Nat) : Int := sint opw (cwArg opw w)

/-- `decode : CW -> Cmd`, total (R73, R77, R81): `valid = 0` is IDLE whatever the other bits hold,
else the 3-bit `op` selects one of eight operations. Ignored fields are dropped (R76). -/
def decode (opw : Nat) (w : Nat) : Instr :=
  if cwValid w = 0 then .idle
  else match cwOp w with
    | 0 => .init (cwInt opw w)
    | 1 => .destroy
    | 2 => .rdat (cwInt opw w)
    | 3 => .wrat (cwInt opw w) (cwData w)
    | 4 => .clear
    | 5 => .len
    | 6 => .enq (cwData w)
    | _ => .deq -- 7, since `op` has three bits (R73)

/-- `CW = { arg, data[7:0], op[2:0], valid }` (R71). -/
def packWord (arg data op valid : Nat) : Nat := arg * 2 ^ 12 + data * 2 ^ 4 + op * 2 + valid

/-- `x mod 2^OPW`, the `arg` field that holds the signed integer `x` (R79). -/
def argField (opw : Nat) (x : Int) : Nat := (x % (2 ^ opw : Int)).toNat

/-- `encode : Cmd -> CW`, the canonical word of R79: every ignored field is zero. -/
def encode (opw : Nat) : Instr → Nat
  | .idle => packWord 0 0 0 0
  | .init c => packWord (argField opw c) 0 0 1
  | .destroy => packWord 0 0 1 1
  | .rdat pos => packWord (argField opw pos) 0 2 1
  | .wrat pos v => packWord (argField opw pos) v.toNat 3 1
  | .clear => packWord 0 0 4 1
  | .len => packWord 0 0 5 1
  | .enq v => packWord 0 v.toNat 6 1
  | .deq => packWord 0 0 7 1

/-- One row of the opcode table of R73: a word `w` is the row's instruction when `w & mask = pattern`. -/
structure OpcodeRow where
  mnemonic : String
  pattern : Nat
  mask : Nat
deriving DecidableEq, Repr

/-- The row's test (R73). -/
def OpcodeRow.accepts (r : OpcodeRow) (w : Nat) : Bool := w &&& r.mask == r.pattern

/-- The nine rows of R73 in the order of the table. -/
def opcodeRows : List OpcodeRow :=
  [⟨"IDLE", 0x0, 0x1⟩, ⟨"INIT", 0x1, 0xF⟩, ⟨"DESTROY", 0x3, 0xF⟩, ⟨"RDAT", 0x5, 0xF⟩,
   ⟨"WRAT", 0x7, 0xF⟩, ⟨"CLEAR", 0x9, 0xF⟩, ⟨"LEN", 0xB, 0xF⟩, ⟨"ENQ", 0xD, 0xF⟩, ⟨"DEQ", 0xF, 0xF⟩]

/-- The word the host's port carries when it is given `nbits` bits `w` and zeros above them. A command
is one word, `OPW + 12` bits wide (R78), so there are no further words to lay out. -/
def tableWord (nbits w : Nat) : Nat := w % 2 ^ nbits

/-- What the decoder reads from a table word at the reference parameters. Every word decodes (R77). -/
def decodeTableWord (nbits w : Nat) : Option Instr := some (decode Params.reference.opw (tableWord nbits w))

end Sys2Proof
end

