-- ==== Sys2Proof/Machine/State.lean ====
section
/-!
DEFINITION. The state of the block as plain data, the reasons a step can stop, and the state after reset.
-/
namespace Sys2Proof.Machine

/-- The four status codes (30_encoding.md R74). `invalid` is the source's InvalidCapacity and OutOfRange. -/
inductive Status where
  | ok
  | invalid
  | empty
  | full
deriving DecidableEq, Repr

/-- The abstract response of one cycle (30_encoding.md R82). -/
inductive Rsp where
  /-- No response: `rsp_valid = 0` (IDLE, DESTROY, a cycle with `rst = 1`). -/
  | noResponse
  /-- A bare status. -/
  | status (s : Status)
  /-- `OK` with the byte of RDAT or DEQ. -/
  | byte (b : Byte)
  /-- `OK` with the length of LEN. -/
  | len (n : Nat)
deriving DecidableEq, Repr

/-- What the host drives in one cycle: `rst` and the command word (30_encoding.md R70, 00_scope.md R8). -/
structure PortIn where
  rst : Bool
  cw : Nat
deriving DecidableEq, Repr

/-- What a slot that no entry lists holds: 0 after a zero fill (20_memory.md R57), or unspecified
contents, told apart by the draw that made them (10_state.md R32, 40_init_destroy.md R101). -/
inductive Fill where
  | zero
  | unspecified (draw : Nat)
deriving DecidableEq, Repr

/-- The storage array (10_state.md R22): what unlisted slots hold, and the slots that differ from it,
sorted by slot index. -/
structure Storage where
  fill : Fill
  cells : List Host.Cell
deriving DecidableEq, Repr

/-- The state of one instance. The five items of 10_state.md R20 are `alloc`, `capacity`, `rdPtr`,
`wrPtr` and `storage`. `params` are the instance's parameters, which no step changes; `inputs` is what
the host will drive, `rsp` what the block drove in the last cycle; `draws` counts the unspecified
values met so far and is the model's own (notes/assumptions/1.md to 6.md). -/
structure State where
  /-- `OPW` and `MAX_LOG2` of this instance (00_scope.md R5). -/
  params : Params
  /-- 1 while the block holds a buffer (R25). -/
  alloc : Bool
  /-- The number of slots of the current buffer (R21). -/
  capacity : Nat
  /-- The slot the next successful DEQ reads (R23). -/
  rdPtr : Nat
  /-- The slot the next successful ENQ writes (R24). -/
  wrPtr : Nat
  /-- The buffer's bytes (R22). -/
  storage : Storage
  /-- The response ports as driven in the last cycle (30_encoding.md R70, R72). -/
  rsp : Rsp
  /-- The port inputs of the coming cycles, next one first (00_scope.md R8, 70_reset_and_hazards.md R177). -/
  inputs : List PortIn
  /-- How many unspecified values have been drawn; read only to draw the next. -/
  draws : Nat
deriving DecidableEq, Repr

/-- Why a step stops with a fault. -/
inductive Fault where
  /-- Raised by every operation but INIT and IDLE while `alloc = 0` (60_exceptions.md R152). Safe: the
  spec gives such a step neither a next state nor a response. -/
  | useWhileUnallocated
  /-- Raised by the memory primitives for an address that does not exist: a slot outside `[0, capacity)`,
  or any slot while `alloc = 0` (20_memory.md R50, R51, R55). No state that meets the invariant of R26 reaches it. Safe. -/
  | noSuchSlot
deriving DecidableEq, Repr

/-- Why a step has no meaning. -/
inductive Refusal where
  /-- Raised by an arm of `exec` for an instruction with no meaning yet; no arm of this model does. Safe. -/
  | notModelled (mnemonic : String)
deriving DecidableEq, Repr

/-- The outcome of a step of the block (00_scope.md R10). -/
abbrev Result := Host.Outcome State Fault Refusal

/-- The state right after reset (10_state.md R32): `alloc = 0`. The spec gives the other items no value:
the storage holds unspecified bytes, and `capacity` and the cursors hold the value notes/assumptions/2.md
names (DESIGN CHOICE, unsafe; nothing reads them before a successful INIT writes them). The parameters
are the reference values (R5). -/
def State.reset : State where
  params := Params.reference
  alloc := false
  capacity := 0
  rdPtr := 0
  wrPtr := 0
  storage := { fill := .unspecified 0, cells := [] }
  rsp := .noResponse
  inputs := []
  draws := 1

end Sys2Proof.Machine
end

