-- ==== Sys2Proof/Machine/Ops.lean ====
section
/-!
DEFINITION. The named operations the meanings are written over: the storage, the two memory primitives,
the response, the guard against use while unallocated, reset, and the fetch of a cycle's inputs.
There is no trap entry and no trap return to model: a failure is a status and an unchanged state
(60_exceptions.md R155, R156), which is `failWith`.
-/
namespace Sys2Proof.Machine

/-! ### The storage -/

/-- What an unlisted slot reads as (20_memory.md R57; notes/assumptions/4.md). -/
def Fill.byteAt : Fill → Nat → Byte
  | .zero, _ => 0
  | .unspecified draw, slot => Config.freeByte draw slot

/-- The byte listed for a slot, if one is. -/
def lookupCell : List Host.Cell → Nat → Option Byte
  | [], _ => none
  | (b, v) :: rest, a => if b = a then some v else lookupCell rest a

/-- List a byte for a slot, keeping the slots sorted. -/
def insertCell : List Host.Cell → Nat → Byte → List Host.Cell
  | [], a, v => [(a, v)]
  | (b, w) :: rest, a, v =>
    if a < b then (a, v) :: (b, w) :: rest
    else if b = a then (a, v) :: rest
    else (b, w) :: insertCell rest a v

/-- Take a slot off the list. -/
def eraseCell (cells : List Host.Cell) (a : Nat) : List Host.Cell := cells.filter fun c => c.1 != a

/-- `storage[a]` (00_scope.md R7). -/
def Storage.read (m : Storage) (a : Nat) : Byte := (lookupCell m.cells a).getD (m.fill.byteAt a)

/-- `storage[a] <- v` (00_scope.md R7), in canonical form. -/
def Storage.write (m : Storage) (a : Nat) (v : Byte) : Storage :=
  { m with cells := if v = m.fill.byteAt a then eraseCell m.cells a else insertCell m.cells a v }

/-- Every slot 0: the zero fill of INIT and CLEAR, one indivisible step (20_memory.md R57). -/
def Storage.zeroFilled : Storage := { fill := .zero, cells := [] }

/-- Unspecified contents, by draw (40_init_destroy.md R101). -/
def Storage.unspecified (draw : Nat) : Storage := { fill := .unspecified draw, cells := [] }

/-- The canonical form: slots strictly rising, and no entry equal to what its slot reads as unlisted. -/
abbrev Storage.wf (m : Storage) : Prop :=
  m.cells.Pairwise (fun c d => c.1 < d.1) ∧ ∀ c ∈ m.cells, c.2 ≠ m.fill.byteAt c.1

/-! ### The memory primitives -/

/-- Is `a` an address? The space is `[0, capacity)`, and it exists only while `alloc = 1` (20_memory.md R50). -/
abbrev HasSlot (s : State) (a : Nat) : Prop := s.alloc = true ∧ a < s.capacity

/-- `MemRead(a, 1)`: requires `alloc = 1` and `0 <= a < capacity` (20_memory.md R51). -/
def memRead (s : State) (a : Nat) : Option Byte :=
  if HasSlot s a then some (s.storage.read a) else none

/-- `MemWrite(a, 1, v)`: requires `alloc = 1` and `0 <= a < capacity` (20_memory.md R51). -/
def memWrite (s : State) (a : Nat) (v : Byte) : Option State :=
  if HasSlot s a then some { s with storage := s.storage.write a v } else none

/-- Read slot `a` and go on with its byte; a slot that does not exist stops the step. -/
def loadThen (s : State) (a : Nat) (k : Byte → Result) : Result :=
  match memRead s a with
  | some b => k b
  | none => .fault .noSuchSlot

/-- Write slot `a` and go on; a slot that does not exist stops the step. -/
def storeThen (s : State) (a : Nat) (v : Byte) (k : State → Result) : Result :=
  match memWrite s a v with
  | some t => k t
  | none => .fault .noSuchSlot

/-! ### Responding -/

/-- `respond(...)`: complete the step, driving this cycle's response (00_scope.md R7). -/
def respond (r : Rsp) (s : State) : Result := .next { s with rsp := r }

/-- `respond(OK, 0)`. -/
def succeed (s : State) : Result := respond (.status .ok) s

/-- A failure: its status, and no state change (60_exceptions.md R150, R151, R155). -/
def failWith (e : Status) (s : State) : Result := respond (.status e) s

/-- `if alloc = 0 then raise UseWhileUnallocated`, decided before the operation's own check
(60_exceptions.md R152, R154). -/
def requireBuffer (s : State) (k : Result) : Result :=
  if s.alloc then k else .fault .useWhileUnallocated

/-! ### Life of a buffer -/

/-- `is_pow2(c)`: there is `k >= 0` with `c = 2^k` (00_scope.md R6); `log2` finds the only candidate. -/
def isPow2 (c : Int) : Bool := 0 < c && c.toNat == 2 ^ c.toNat.log2

/-- INIT's test: `c > 0 and is_pow2(c) and c <= 2^MAX_LOG2` (40_init_destroy.md R100). -/
def capacityOk (p : Params) (c : Int) : Bool :=
  decide (0 < c) && isPow2 c && decide (c ≤ (p.maxCapacity : Int))

/-- A new buffer of `n` slots: zero-filled, both cursors 0 (R100). -/
def createBuffer (n : Nat) (s : State) : State :=
  { s with alloc := true, capacity := n, rdPtr := 0, wrPtr := 0, storage := Storage.zeroFilled }

/-- Both cursors to 0 and every slot 0; the capacity is kept (42_clear.md R120). -/
def clearBuffer (s : State) : State :=
  { s with rdPtr := 0, wrPtr := 0, storage := Storage.zeroFilled }

/-- `alloc` to 0; `capacity` and the cursors keep their values, the storage's contents become
unspecified (40_init_destroy.md R101). -/
def releaseBuffer (s : State) : State :=
  { s with alloc := false, storage := Storage.unspecified s.draws, draws := s.draws + 1 }

/-- A cycle with `rst = 1` (70_reset_and_hazards.md R170): `alloc = 0`, no response, everything else
unspecified. A register's free value fits its physical width (10_state.md R21, R23, R24). -/
def takeReset (s : State) : State :=
  { s with
    alloc := false
    capacity := Config.freeCapacity s.draws % 2 ^ s.params.capacityWidth
    rdPtr := Config.freeReadPtr s.draws % 2 ^ s.params.cursorWidth
    wrPtr := Config.freeWritePtr s.draws % 2 ^ s.params.cursorWidth
    storage := Storage.unspecified s.draws
    rsp := .noResponse
    draws := s.draws + 1 }

/-! ### The inputs of a cycle -/

/-- What one cycle asks for (60_exceptions.md R154, item 1 before the others). -/
inductive Cycle where
  | reset
  | command (i : Instr)
deriving DecidableEq, Repr

/-- The next cycle and the state with its inputs taken off the queue. `rst` wins over the command
(R154, R170). When the host has nothing more to present, it drives the idle word (R8, R145;
notes/assumptions/6.md). -/
def fetchCycle (s : State) : Cycle × State :=
  match s.inputs with
  | [] => (.command .idle, s)
  | x :: rest =>
    (if x.rst then .reset else .command (decode s.params.opw x.cw), { s with inputs := rest })

/-- `s` with the word `w`, and `rst = 0`, presented in the very next cycle. -/
def presentWord (s : State) (w : Nat) : State :=
  { s with inputs := { rst := false, cw := w } :: s.inputs.tail }

end Sys2Proof.Machine
end

