-- ==== Sys2Proof/Machine/Clear.lean ====
section
/-!
DEFINITION. CLEAR (42_clear.md).
-/
namespace Sys2Proof.Machine

/-- CLEAR (R120): empty the queue and zero every slot, keeping the capacity. -/
def execClear (s : State) : Result := requireBuffer s (succeed (clearBuffer s))

end Sys2Proof.Machine
end

