-- ==== Sys2Proof/Machine/Flags.lean ====
section
/-!
DEFINITION. The derived quantities: the block stores no flag and no count (10_state.md R27, R28), and
the cursor arithmetic (44_fifo_protocol.md R133).
-/
namespace Sys2Proof.Machine

/-- `len() = (wr_ptr - rd_ptr) mod capacity` (10_state.md R27). -/
def len (s : State) : Nat := (((s.wrPtr : Int) - s.rdPtr) % s.capacity).toNat

/-- `is_empty()`: `len() = 0` (10_state.md R28). -/
def isEmpty (s : State) : Bool := decide (len s = 0)

/-- `is_full()`: `len() = capacity - 1` (10_state.md R28). -/
def isFull (s : State) : Bool := decide ((len s : Int) = (s.capacity : Int) - 1)

/-- `(x + 1) mod capacity`: the cursor increment (44_fifo_protocol.md R133). -/
def nextCursor (capacity x : Nat) : Nat := (x + 1) % capacity

/-- The source's mask form of the length: the low bits of the two's-complement difference, kept by an
AND with `capacity - 1` (10_state.md R27). The difference is taken in `width` bits. -/
def lenMasked (width : Nat) (s : State) : Nat :=
  (BitVec.ofNat width s.wrPtr - BitVec.ofNat width s.rdPtr).toNat &&& (s.capacity - 1)

/-- The mask form of the cursor increment, `(x + 1) & (capacity - 1)` (R133). -/
def nextCursorMasked (capacity x : Nat) : Nat := (x + 1) &&& (capacity - 1)

end Sys2Proof.Machine
end

