-- ==== Sys2Proof/Machine/Operands.lean ====
section
/-!
DEFINITION. The two operand forms that name a slot (20_memory.md R56).
-/
namespace Sys2Proof.Machine

/-- Absolute: the signed integer `p` as it is, no modulo, checked `0 <= p < capacity` before any access. -/
def absoluteSlot (s : State) (p : Int) : Option Nat :=
  if 0 ≤ p ∧ p < (s.capacity : Int) then some p.toNat else none

/-- The slot ENQ writes: `wr_ptr` as it was at the start of the step. -/
def writeSlot (s : State) : Nat := s.wrPtr

/-- The slot DEQ reads: `rd_ptr` as it was at the start of the step. -/
def readSlot (s : State) : Nat := s.rdPtr

/-- `wr_ptr <- (wr_ptr + 1) mod capacity`, the post-increment of ENQ. -/
def advanceWrite (s : State) : State := { s with wrPtr := nextCursor s.capacity s.wrPtr }

/-- `rd_ptr <- (rd_ptr + 1) mod capacity`, the post-increment of DEQ. -/
def advanceRead (s : State) : State := { s with rdPtr := nextCursor s.capacity s.rdPtr }

end Sys2Proof.Machine
end

