-- ==== Sys2Proof/Machine/Fifo.lean ====
section
/-!
DEFINITION. ENQ and DEQ, the sequential FIFO protocol (44_fifo_protocol.md).
-/
namespace Sys2Proof.Machine

/-- ENQ `v` (R130): append `v`, or `FULL` and no state change. -/
def execEnq (v : Byte) (s : State) : Result :=
  requireBuffer s <|
    if isFull s then failWith .full s
    else storeThen s (writeSlot s) v fun t => succeed (advanceWrite t)

/-- DEQ (R131): remove and return the oldest byte, or `EMPTY` and no state change. The slot keeps its
byte (20_memory.md R64). -/
def execDeq (s : State) : Result :=
  requireBuffer s <|
    if isEmpty s then failWith .empty s
    else loadThen s (readSlot s) fun b => respond (.byte b) (advanceRead s)

end Sys2Proof.Machine
end

