-- ==== Sys2Proof/Machine/Idle.lean ====
section
/-!
DEFINITION. IDLE, the cycle with no operation (45_idle.md).
-/
namespace Sys2Proof.Machine

/-- IDLE (R145): no state change, no response, legal in every state. -/
def execIdle (s : State) : Result := respond .noResponse s

end Sys2Proof.Machine
end

