-- ==== Sys2Proof/Machine/Length.lean ====
section
/-!
DEFINITION. LEN (43_length.md).
-/
namespace Sys2Proof.Machine

/-- LEN (R125): the number of queued bytes; writes no state. -/
def execLen (s : State) : Result := requireBuffer s (respond (.len (len s)) s)

end Sys2Proof.Machine
end

