-- ==== Sys2Proof/Machine/Lifecycle.lean ====
section
/-!
DEFINITION. INIT and DESTROY (40_init_destroy.md).
-/
namespace Sys2Proof.Machine

/-- INIT `c` (R100): legal in every state, does not read `alloc`. -/
def execInit (c : Int) (s : State) : Result :=
  if capacityOk s.params c then succeed (createBuffer c.toNat s) else failWith .invalid s

/-- DESTROY (R101): produces no response. -/
def execDestroy (s : State) : Result := requireBuffer s (respond .noResponse (releaseBuffer s))

end Sys2Proof.Machine
end

