-- ==== Sys2Proof/Machine/Positional.lean ====
section
/-!
DEFINITION. RDAT and WRAT, the raw positional interface (41_positional_access.md).
-/
namespace Sys2Proof.Machine

/-- RDAT `pos` (R110): the byte in slot `pos`, independent of either cursor. -/
def execRdat (pos : Int) (s : State) : Result :=
  requireBuffer s <|
    match absoluteSlot s pos with
    | some a => loadThen s a fun b => respond (.byte b) s
    | none => failWith .invalid s

/-- WRAT `pos, v` (R111): write `v` into slot `pos`; no cursor moves. -/
def execWrat (pos : Int) (v : Byte) (s : State) : Result :=
  requireBuffer s <|
    match absoluteSlot s pos with
    | some a => storeThen s a v succeed
    | none => failWith .invalid s

end Sys2Proof.Machine
end

