-- ==== Sys2Proof/Machine/Dispatch.lean ====
section
/-!
DEFINITION. The one dispatch from an instruction to its meaning.
-/
namespace Sys2Proof.Machine

def exec (i : Instr) (s : State) : Host.Outcome State Fault Refusal :=
  match i with
  | .idle => Sys2Proof.Machine.execIdle s
  | .init c => Sys2Proof.Machine.execInit c s
  | .destroy => Sys2Proof.Machine.execDestroy s
  | .rdat pos => Sys2Proof.Machine.execRdat pos s
  | .wrat pos v => Sys2Proof.Machine.execWrat pos v s
  | .clear => Sys2Proof.Machine.execClear s
  | .len => Sys2Proof.Machine.execLen s
  | .enq v => Sys2Proof.Machine.execEnq v s
  | .deq => Sys2Proof.Machine.execDeq s

end Sys2Proof.Machine
end

