-- ==== Sys2Proof/Machine/Step.lean ====
section
/-!
DEFINITION. One step of the block: one cycle (00_scope.md R8, 70_reset_and_hazards.md R176).
-/
namespace Sys2Proof.Machine

/-- Take the next cycle's inputs; `rst = 1` resets the block, else the command runs (60_exceptions.md R154). -/
def step (s : State) : Host.Outcome State Fault Refusal :=
  match fetchCycle s with
  | (.reset, t) => .next (takeReset t)
  | (.command i, t) => exec i t

/-- `s` with the instruction of `nbits` bits `w` (zeros above) presented in the next cycle. -/
def State.withFetchWord (s : State) (nbits w : Nat) : State := presentWord s (tableWord nbits w)

end Sys2Proof.Machine
end

