-- ==== Sys2Proof/Machine/Assembler.lean ====
section
/-!
DEFINITION. The assembler line syntax of 30_encoding.md R79 and R80: one line of text, one command word.
What R79 does not settle (white space, a line without a command, the range of a literal, and so on) is the
model's choice (DESIGN CHOICE, notes/assumptions/8.md).
-/
namespace Sys2Proof.Machine

/-- The single quote that encloses a character literal (R79). -/
def quoteChar : Char := Char.ofNat 39

/-- Is the character white space of a line? -/
def isBlank (c : Char) : Bool := c == ' ' || c == Char.ofNat 9

/-- Drop the comment (from `;`) and the expected response (from `->`) (R79). A character between single quotes
is its literal's byte and starts neither; R79 does not say so (DESIGN CHOICE, notes/assumptions/8.md). -/
def dropTail : List Char → List Char
  | [] => []
  | a :: rest =>
    match rest with
    | b :: c :: rest' =>
      if a == quoteChar && c == quoteChar then a :: b :: c :: dropTail rest'
      else if a == ';' || (a == '-' && b == '>') then []
      else a :: dropTail (b :: c :: rest')
    | [b] => if a == ';' || (a == '-' && b == '>') then [] else a :: dropTail [b]
    | [] => if a == ';' then [] else [a]

/-- Remove white space at both ends. -/
def trimBlanks (l : List Char) : List Char :=
  ((l.dropWhile isBlank).reverse.dropWhile isBlank).reverse

/-- Split the operand text at its commas (R79). A comma between single quotes is its literal's byte and
separates nothing; R79 does not say so (DESIGN CHOICE, notes/assumptions/8.md). -/
def splitOperands : List Char → List Char → List (List Char)
  | acc, [] => [acc.reverse]
  | acc, a :: rest =>
    match rest with
    | b :: c :: rest' =>
      if a == quoteChar && c == quoteChar then splitOperands (c :: b :: a :: acc) rest'
      else if a == ',' then acc.reverse :: splitOperands [] (b :: c :: rest')
      else splitOperands (a :: acc) (b :: c :: rest')
    | [b] => if a == ',' then acc.reverse :: splitOperands [] [b] else splitOperands (a :: acc) [b]
    | [] => if a == ',' then [acc.reverse, []] else [(a :: acc).reverse]

/-- The value of a hexadecimal digit. -/
def digitValue (c : Char) : Option Nat :=
  if '0' ≤ c ∧ c ≤ '9' then some (c.toNat - 48)
  else if 'a' ≤ c ∧ c ≤ 'f' then some (c.toNat - 87)
  else if 'A' ≤ c ∧ c ≤ 'F' then some (c.toNat - 55)
  else none

/-- Read digits in a base, after a value already read. -/
def readDigits (base : Nat) : Nat → List Char → Option Nat
  | acc, [] => some acc
  | acc, c :: rest =>
    match digitValue c with
    | some d => if d < base then readDigits base (acc * base + d) rest else none
    | none => none

/-- One digit or more in a base. -/
def readNumber (base : Nat) : List Char → Option Nat
  | [] => none
  | l => readDigits base 0 l

/-- An integer: decimal, with a leading `-` if negative, or hexadecimal with `0x` (R79). -/
def readInt : List Char → Option Int
  | '0' :: 'x' :: l => (readNumber 16 l).map Int.ofNat
  | '-' :: l => (readNumber 10 l).map fun n => -(n : Int)
  | l => (readNumber 10 l).map Int.ofNat

/-- A byte: an integer 0 to 255, or a character literal, the one byte of its ASCII code (R79, R80). That any
character may stand in a literal, the single quote too, if its code is below 128, is the model's choice (DESIGN
CHOICE, notes/assumptions/8.md). -/
def readByte (l : List Char) : Option Byte :=
  match l with
  | [a, c, b] =>
    if a == quoteChar && b == quoteChar then (if c.toNat < 128 then some (BitVec.ofNat 8 c.toNat) else none)
    else byteOfInt (readInt l)
  | _ => byteOfInt (readInt l)
where
  byteOfInt : Option Int → Option Byte
    | some n => if 0 ≤ n ∧ n < 256 then some (BitVec.ofNat 8 n.toNat) else none
    | none => none

/-- The operands of a line, each trimmed; no text means no operand. -/
def readOperands (l : List Char) : List (List Char) :=
  match trimBlanks l with
  | [] => []
  | t => (splitOperands [] t).map trimBlanks

/-- The instruction a mnemonic and its operands spell (R79). A line without a command (blank, or a comment or
an expected response alone) has the empty mnemonic and is rejected; R79 does not say whether such a line is
skipped, an idle cycle or an error (DESIGN CHOICE, notes/assumptions/8.md). -/
def readInstr (mnemonic : List Char) (operands : List (List Char)) : Option Instr :=
  match operands with
  | [] =>
    if mnemonic == ['I', 'D', 'L', 'E'] then some .idle
    else if mnemonic == ['D', 'E', 'S', 'T', 'R', 'O', 'Y'] then some .destroy
    else if mnemonic == ['C', 'L', 'E', 'A', 'R'] then some .clear
    else if mnemonic == ['L', 'E', 'N'] then some .len
    else if mnemonic == ['D', 'E', 'Q'] then some .deq
    else none
  | [a] =>
    if mnemonic == ['I', 'N', 'I', 'T'] then (readInt a).map .init
    else if mnemonic == ['R', 'D', 'A', 'T'] then (readInt a).map .rdat
    else if mnemonic == ['E', 'N', 'Q'] then (readByte a).map .enq
    else none
  | [a, b] =>
    if mnemonic == ['W', 'R', 'A', 'T'] then (readInt a).bind fun p => (readByte b).map (.wrat p)
    else none
  | _ => none

/-- The instruction of a line, its operands in the ranges of R79 for operand width `OPW`. -/
def parseLine (opw : Nat) (line : List Char) : Option Instr :=
  let text := trimBlanks (dropTail line)
  let mnemonic := text.takeWhile fun c => !isBlank c
  let operands := readOperands (text.dropWhile fun c => !isBlank c)
  match readInstr mnemonic operands with
  | some i => if i.wellFormed opw then some i else none
  | none => none

/-- The canonical command word of a line (R79). -/
def assemble (opw : Nat) (line : List Char) : Option Nat := (parseLine opw line).map (encode opw)

end Sys2Proof.Machine
end

