-- ==== Sys2Proof/Machine/Response.lean ====
section
/-!
DEFINITION. The response on the wires: the ports of 30_encoding.md R70 and the word of R72 and R82.
-/
namespace Sys2Proof.Machine

/-- The status code (R74). -/
def Status.code : Status → Nat
  | .ok => 0
  | .invalid => 1
  | .empty => 2
  | .full => 3

/-- `rsp_valid` (R70). -/
def Rsp.validPort : Rsp → Nat
  | .noResponse => 0
  | .status _ => 1
  | .byte _ => 1
  | .len _ => 1

/-- `rsp_status`, 0 when there is no response; LEN's `OK` is a filler (R70, R74). -/
def Rsp.statusPort : Rsp → Nat
  | .noResponse => 0
  | .status e => e.code
  | .byte _ => Status.ok.code
  | .len _ => Status.ok.code

/-- `rsp_val`: the byte zero-extended, or the length, and 0 in every other case (R70, R75). -/
def Rsp.valPort : Rsp → Nat
  | .noResponse => 0
  | .status _ => 0
  | .byte b => b.toNat
  | .len n => n

/-- `RW = { rsp_val, rsp_status[1:0], rsp_valid }` (R72). -/
def Rsp.word (r : Rsp) : Nat := r.valPort * 2 ^ 3 + r.statusPort * 2 + r.validPort

end Sys2Proof.Machine
end

