-- ==== Sys2Proof/Safety.lean ====
section
/-!
DEFINITION. What claims are stated in: the invariant of 10_state.md R26, the queue's logical content
(44_fifo_protocol.md R134), runs and their observations (70_reset_and_hazards.md R177).
-/
namespace Sys2Proof.Machine

/-- What R26 says of the buffer while `alloc = 1`: the capacity is a power of two no larger than the
physical storage, both cursors are in range, and the storage is an array of `capacity` bytes in which
every slot not listed reads 0. Item 4 of R26 (`len() <= capacity - 1`) is a statement, not a part. -/
abbrev BufferOk (s : State) : Prop :=
  (∃ k, k ≤ s.params.maxLog2 ∧ s.capacity = 2 ^ k) ∧
  s.rdPtr < s.capacity ∧
  s.wrPtr < s.capacity ∧
  s.storage.fill = .zero ∧
  ∀ c ∈ s.storage.cells, c.1 < s.capacity

/-- The registers fit their physical widths (10_state.md R21, R23, R24). -/
abbrev RegistersFit (s : State) : Prop :=
  s.capacity < 2 ^ s.params.capacityWidth ∧
  s.rdPtr < 2 ^ s.params.cursorWidth ∧
  s.wrPtr < 2 ^ s.params.cursorWidth

/-- The machine's invariant: legal parameters, registers within their widths, storage in canonical form,
and R26 while allocated. -/
abbrev StateInv (s : State) : Prop :=
  s.params.Ok ∧ RegistersFit s ∧ s.storage.wf ∧ (s.alloc = true → BufferOk s)

/-- The slot of the `i`-th queued byte, counting from 0 at `rd_ptr` (44_fifo_protocol.md R134). -/
def queuedSlot (s : State) (i : Nat) : Nat := (s.rdPtr + i) % s.capacity

/-- The queue's logical content, oldest first (44_fifo_protocol.md R134). -/
def queue (s : State) : List Byte := (List.range (len s)).map fun i => s.storage.read (queuedSlot s i)

/-- How many more bytes the buffer takes: `capacity - 1 - len()` (44_fifo_protocol.md R135). -/
def room (s : State) : Nat := s.capacity - 1 - len s

/-- A list of commands, one per cycle with `rst = 0`: the final state and the list of responses, or
nothing for a run that is bad because a step faulted (70_reset_and_hazards.md R177). -/
def runCommands : List Instr → State → Option (State × List Rsp)
  | [], s => some (s, [])
  | i :: rest, s =>
    match exec i s with
    | .next t => (runCommands rest t).map fun (u, rs) => (u, t.rsp :: rs)
    | .fault _ => none
    | .refused _ => none

/-- What the host observes over `n` cycles: the response of each, ending at a step that has none
because it faulted. -/
def observe : Nat → State → List (Option Rsp)
  | 0, _ => []
  | n + 1, s =>
    match step s with
    | .next t => some t.rsp :: observe n t
    | .fault _ => [none]
    | .refused _ => [none]

/-- `s` with a list of command words to be presented, one per cycle with `rst = 0` (R177). -/
def presentAll (s : State) (words : List Nat) : State :=
  { s with inputs := words.map fun w => { rst := false, cw := w } }

/-- A run of R177 on these words is bad: it starts at the reset state and one of its steps faults. -/
abbrev BadRun (words : List Nat) : Prop := none ∈ observe words.length (presentAll State.reset words)

/-- The bytes of the ENQs that were accepted, in command order (R134). -/
def enqueued : List Instr → List Rsp → List Byte
  | .enq v :: cmds, .status .ok :: rs => v :: enqueued cmds rs
  | _ :: cmds, _ :: rs => enqueued cmds rs
  | _, _ => []

/-- The bytes the successful DEQs returned, in command order (R134). -/
def dequeued : List Instr → List Rsp → List Byte
  | .deq :: cmds, .byte b :: rs => b :: dequeued cmds rs
  | _ :: cmds, _ :: rs => dequeued cmds rs
  | _, _ => []

/-- The commands that may stand in a run of R134 after its INIT or CLEAR: no WRAT, and nothing that
starts or ends a buffer. -/
def fifoOrRead : Instr → Bool
  | .idle => true
  | .rdat _ => true
  | .len => true
  | .enq _ => true
  | .deq => true
  | .init _ => false
  | .destroy => false
  | .wrat _ _ => false
  | .clear => false

/-- Two states a host cannot tell apart: the same parameters, pending inputs and `alloc`, and the same
buffer while one exists. `capacity`, the cursors and the storage of a block without a buffer, the last
response and the count of draws are left out (10_state.md R32). -/
abbrev SameView (s t : State) : Prop :=
  s.params = t.params ∧ s.inputs = t.inputs ∧ s.alloc = t.alloc ∧
  (s.alloc = true →
    s.capacity = t.capacity ∧ s.rdPtr = t.rdPtr ∧ s.wrPtr = t.wrPtr ∧ s.storage = t.storage)

end Sys2Proof.Machine
end

