-- ==== Sys2Proof/Certificates/Slice0/Obligations.lean ====
section
/-!
DEFINITION. The statements for the provers. Each docstring says which rule of spec/ it formalises.
A response `r` is the outcome `.next` of a state whose `rsp` is `r`; a next state written as an update of
`s` leaves every other item as it was, so such an equation is the instruction's frame as well.
-/

open Sys2Proof Sys2Proof.Machine

/-! ### The nine instructions -/

/-- 45_idle.md R145: IDLE does nothing in every state, is every word with bit 0 clear, may stand before
any command without changing that command's result, and is with INIT the only one legal in every state. -/
def Obligations.IdleKeepsEverything : Prop :=
  (∀ s, exec .idle s = .next { s with rsp := .noResponse }) ∧
  (∀ opw w, w % 2 = 0 → decode opw w = .idle) ∧
  (∀ opw, encode opw .idle = 0) ∧
  (∀ s t i, exec .idle s = .next t → exec i t = exec i s) ∧
  (∀ i, (∀ s, ∃ t, exec i s = .next t) → i = .idle ∨ ∃ c, i = .init c) ∧
  (∀ c s, ∃ t, exec (.init c) s = .next t)

/-- 40_init_destroy.md R100: when INIT succeeds, what it then leaves, and that otherwise it answers
`INVALID` and changes nothing; in every state, whatever `alloc` is. -/
def Obligations.InitCreatesOrRefuses : Prop :=
  (∀ (s : State) (c : Int), (0 < c ∧ (∃ k : Nat, c = 2 ^ k) ∧ c ≤ 2 ^ s.params.maxLog2) →
    ∃ m, exec (.init c) s = .next { s with alloc := true, capacity := c.toNat, rdPtr := 0, wrPtr := 0,
                                           storage := m, rsp := .status .ok } ∧
      (∀ a, a < c.toNat → m.read a = 0)) ∧
  (∀ (s : State) (c : Int), ¬ (0 < c ∧ (∃ k : Nat, c = 2 ^ k) ∧ c ≤ 2 ^ s.params.maxLog2) →
    exec (.init c) s = .next { s with rsp := .status .invalid }) ∧
  (∀ s t c, exec (.init c) s = .next t → t.rsp = .status .ok →
    len t = 0 ∧ isEmpty t = true ∧ (isFull t = true ↔ c = 1)) ∧
  (∀ opw w, w % 16 = 1 → decode opw w = .init (sint opw (w / 2 ^ 12 % 2 ^ opw)))

/-- 40_init_destroy.md R101: DESTROY gives the buffer up, keeps `capacity` and the cursors, says nothing
of the storage, answers nothing; without a buffer it faults. (`draws` counts free values.) -/
def Obligations.DestroyGivesBufferUp : Prop :=
  (∀ s, s.alloc = true →
    ∃ m d, exec .destroy s = .next { s with alloc := false, storage := m, draws := d, rsp := .noResponse }) ∧
  (∀ s, s.alloc = false → exec .destroy s = .fault .useWhileUnallocated) ∧
  (∀ opw w, w % 16 = 3 → decode opw w = .destroy) ∧
  (∀ opw, encode opw .destroy = 3)

/-- 41_positional_access.md R110: RDAT. -/
def Obligations.RdatReadsSlot : Prop :=
  (∀ (s : State) (p : Int), s.alloc = true → 0 ≤ p → p < s.capacity →
    exec (.rdat p) s = .next { s with rsp := .byte (s.storage.read p.toNat) }) ∧
  (∀ (s : State) (p : Int), s.alloc = true → (p < 0 ∨ (s.capacity : Int) ≤ p) →
    exec (.rdat p) s = .next { s with rsp := .status .invalid }) ∧
  (∀ s p, s.alloc = false → exec (.rdat p) s = .fault .useWhileUnallocated) ∧
  (∀ opw w, w % 16 = 5 → decode opw w = .rdat (sint opw (w / 2 ^ 12 % 2 ^ opw)))

/-- 41_positional_access.md R111: WRAT. The slot stored to is `p` itself; every other slot reads as before. -/
def Obligations.WratWritesSlot : Prop :=
  (∀ (s : State) (p : Int) (v : Byte), s.alloc = true → 0 ≤ p → p < s.capacity →
    ∃ m, exec (.wrat p v) s = .next { s with storage := m, rsp := .status .ok } ∧
      m.read p.toNat = v ∧ (∀ a, a ≠ p.toNat → m.read a = s.storage.read a)) ∧
  (∀ (s : State) (p : Int) (v : Byte), s.alloc = true → (p < 0 ∨ (s.capacity : Int) ≤ p) →
    exec (.wrat p v) s = .next { s with rsp := .status .invalid }) ∧
  (∀ s p v, s.alloc = false → exec (.wrat p v) s = .fault .useWhileUnallocated) ∧
  (∀ s t p v, exec (.wrat p v) s = .next t →
    len t = len s ∧ isEmpty t = isEmpty s ∧ isFull t = isFull s) ∧
  (∀ opw w, w % 16 = 7 →
    decode opw w = .wrat (sint opw (w / 2 ^ 12 % 2 ^ opw)) (BitVec.ofNat 8 (w / 2 ^ 4)))

/-- 42_clear.md R120: CLEAR zeroes both cursors and every slot and keeps the capacity. -/
def Obligations.ClearEmptiesAndZeroes : Prop :=
  (∀ s, s.alloc = true →
    ∃ m, exec .clear s = .next { s with rdPtr := 0, wrPtr := 0, storage := m, rsp := .status .ok } ∧
      (∀ a, a < s.capacity → m.read a = 0)) ∧
  (∀ s, s.alloc = false → exec .clear s = .fault .useWhileUnallocated) ∧
  (∀ s t, exec .clear s = .next t → len t = 0 ∧ isEmpty t = true ∧ (isFull t = true ↔ s.capacity = 1)) ∧
  (∀ opw w, w % 16 = 9 → decode opw w = .clear) ∧
  (∀ opw, encode opw .clear = 9)

/-- 43_length.md R125: LEN returns the masked cursor difference and writes no state. -/
def Obligations.LenReturnsCursorDistance : Prop :=
  (∀ s, s.alloc = true →
    exec .len s = .next { s with rsp := .len (((s.wrPtr : Int) - s.rdPtr) % s.capacity).toNat }) ∧
  (∀ s, s.alloc = false → exec .len s = .fault .useWhileUnallocated) ∧
  (∀ s, s.params.Ok → BufferOk s →
    (((s.wrPtr : Int) - s.rdPtr) % s.capacity).toNat ≤ s.capacity - 1 ∧
    (((s.wrPtr : Int) - s.rdPtr) % s.capacity).toNat = lenMasked s.params.opw s) ∧
  (∀ opw w, w % 16 = 11 → decode opw w = .len) ∧
  (∀ opw, encode opw .len = 11)

/-- 44_fifo_protocol.md R130: ENQ. The slot stored to is `wr_ptr` as it was; every other slot reads as before. -/
def Obligations.EnqAppendsOrReportsFull : Prop :=
  (∀ (s : State) (v : Byte), s.alloc = true → BufferOk s → len s ≠ s.capacity - 1 →
    ∃ m, exec (.enq v) s = .next { s with storage := m, wrPtr := (s.wrPtr + 1) % s.capacity,
                                          rsp := .status .ok } ∧
      m.read s.wrPtr = v ∧ (∀ a, a ≠ s.wrPtr → m.read a = s.storage.read a)) ∧
  (∀ (s : State) (v : Byte), s.alloc = true → BufferOk s → len s = s.capacity - 1 →
    exec (.enq v) s = .next { s with rsp := .status .full }) ∧
  (∀ s v, s.alloc = false → exec (.enq v) s = .fault .useWhileUnallocated) ∧
  (∀ opw w, w % 16 = 13 → decode opw w = .enq (BitVec.ofNat 8 (w / 2 ^ 4)))

/-- 44_fifo_protocol.md R131: DEQ. No byte of the storage changes. -/
def Obligations.DeqRemovesOldestOrReportsEmpty : Prop :=
  (∀ s : State, s.alloc = true → BufferOk s → len s ≠ 0 →
    exec .deq s = .next { s with rdPtr := (s.rdPtr + 1) % s.capacity,
                                 rsp := .byte (s.storage.read s.rdPtr) }) ∧
  (∀ s : State, s.alloc = true → len s = 0 → exec .deq s = .next { s with rsp := .status .empty }) ∧
  (∀ s, s.alloc = false → exec .deq s = .fault .useWhileUnallocated) ∧
  (∀ opw w, w % 16 = 15 → decode opw w = .deq) ∧
  (∀ opw, encode opw .deq = 15)

/-! ### Words -/

/-- 30_encoding.md R81: decoding the canonical word of a well-formed instruction gives it back, for
every instruction, every operand value and every operand width. -/
def Obligations.DecodeEncodeRoundTrip : Prop :=
  ∀ (opw : Nat) (i : Instr), 1 ≤ opw → i.wellFormed opw = true → decode opw (encode opw i) = i

/-- 30_encoding.md R81 and R76: encoding what a word decodes to gives the word with its ignored fields
zeroed. -/
def Obligations.EncodeDecodeZeroesIgnoredFields : Prop :=
  ∀ (opw w : Nat), 1 ≤ opw → w < 2 ^ (opw + 12) →
    encode opw (decode opw w) =
      if w % 2 = 0 then 0
      else if w % 16 = 1 ∨ w % 16 = 5 then w / 2 ^ 12 * 2 ^ 12 + w % 16
      else if w % 16 = 7 then w
      else if w % 16 = 13 then w % 2 ^ 12
      else w % 16

/-- 30_encoding.md R76: the result and the next state are the same for every value of an ignored field.
`arg` (bits from 12) is used by INIT, RDAT and WRAT only, `data` (bits 11 to 4) by WRAT and ENQ only,
and IDLE uses neither, nor `op`. -/
def Obligations.IgnoredFieldsHaveNoEffect : Prop :=
  ∀ (s : State) (w w' : Nat) (rest : List PortIn),
    (w % 2 = 0 ∧ w' % 2 = 0) ∨
    (w % 16 = w' % 16 ∧
      (w % 16 = 1 ∨ w % 16 = 5 ∨ w % 16 = 7 → w / 2 ^ 12 % 2 ^ s.params.opw = w' / 2 ^ 12 % 2 ^ s.params.opw) ∧
      (w % 16 = 7 ∨ w % 16 = 13 → w / 2 ^ 4 % 2 ^ 8 = w' / 2 ^ 4 % 2 ^ 8)) →
    step { s with inputs := { rst := false, cw := w } :: rest } =
      step { s with inputs := { rst := false, cw := w' } :: rest }

/-- 30_encoding.md R73 and R77: every word matches exactly one of the nine rows, and the decoder gives
that row's instruction. -/
def Obligations.EveryWordMatchesOneOpcodeRow : Prop :=
  ∀ (opw w : Nat), (opcodeRows.filter fun r => r.accepts w).map OpcodeRow.mnemonic = [(decode opw w).mnemonic]

/-- 30_encoding.md R75: what the decoder gives is well formed for every word. -/
def Obligations.DecodedInstrIsWellFormed : Prop :=
  ∀ (opw w : Nat), 1 ≤ opw → (decode opw w).wellFormed opw = true

/-- 95_test_vectors.md V6 and 30_encoding.md R79: words written out from the encoding, one or more per
instruction, decode to the instruction they stand for. -/
def Obligations.SampleWordsDecode : Prop :=
  decode 32 0x0 = .idle ∧ decode 32 0xFFFFFFFFFFE = .idle ∧ decode 32 0x8FF1 = .init 8 ∧
  decode 32 0xFFFFFFFF003 = .destroy ∧ decode 32 0xFFFFFFFF005 = .rdat (-1) ∧
  decode 32 0x7FFFFFFF005 = .rdat 2147483647 ∧ decode 32 0x80000000417 = .wrat (-2147483648) 0x41 ∧
  decode 32 0x123456789 = .clear ∧ decode 32 0x12345FFB = .len ∧ decode 32 0xDEADBEEF41D = .enq 0x41 ∧
  decode 32 0xABCDE00F = .deq

/-- 30_encoding.md R71: the command word is the four fields at their places, `OPW + 12` bits wide. -/
def Obligations.CommandWordFieldsAtTheirBits : Prop :=
  ∀ (opw arg data op valid : Nat), arg < 2 ^ opw → data < 2 ^ 8 → op < 2 ^ 3 → valid < 2 →
    cwValid (packWord arg data op valid) = valid ∧
    cwOp (packWord arg data op valid) = op ∧
    (cwData (packWord arg data op valid)).toNat = data ∧
    cwArg opw (packWord arg data op valid) = arg ∧
    packWord arg data op valid < 2 ^ (opw + 12)

/-- 30_encoding.md R72 and R82: the response word is the three ports at their places, `OPW + 3` bits
wide, and the five words that carry no value. -/
def Obligations.ResponseWordFieldsAtTheirBits : Prop :=
  (∀ (opw : Nat) (r : Rsp), r.valPort < 2 ^ opw →
    bits r.word 0 1 = r.validPort ∧ bits r.word 1 2 = r.statusPort ∧ bits r.word 3 opw = r.valPort ∧
    r.word < 2 ^ (opw + 3)) ∧
  Rsp.noResponse.word = 0x0 ∧ (Rsp.status .ok).word = 0x1 ∧ (Rsp.status .invalid).word = 0x3 ∧
  (Rsp.status .empty).word = 0x5 ∧ (Rsp.status .full).word = 0x7 ∧
  (∀ b : Byte, (Rsp.byte b).word = b.toNat * 8 + 1) ∧ (∀ n : Nat, (Rsp.len n).word = n * 8 + 1)

/-- 30_encoding.md R75: the signed reading of `arg`: its range, that it is `arg` modulo `2^OPW`, that it
loses no bit, and that a field whose top bit is set is neither a capacity nor a position, read signed or
unsigned. -/
def Obligations.SignedOperandReading : Prop :=
  ∀ (p : Params) (f : Nat), p.Ok → f < 2 ^ p.opw →
    signedRange p.opw (sint p.opw f) ∧
    argField p.opw (sint p.opw f) = f ∧
    (2 ^ (p.opw - 1) ≤ f → sint p.opw f < 0 ∧ p.maxCapacity < f)

/-- 40_init_destroy.md R100 (93_implementation_defined.md G3): the bit-level form of INIT's power-of-two
test. -/
def Obligations.PowerOfTwoTestOnBits : Prop :=
  ∀ (opw f : Nat), 1 ≤ opw → f < 2 ^ opw →
    ((0 < sint opw f ∧ ∃ k : Nat, sint opw f = 2 ^ k) ↔
      (f.testBit (opw - 1) = false ∧ f ≠ 0 ∧ f &&& (f - 1) = 0))

/-- 00_scope.md R5 and 90_conflicts.md C2: with `MAX_LOG2 = OPW - 2`, INIT succeeds exactly on the
positive powers of two among the operands a word can hold. -/
def Obligations.InitAcceptsExactlyThePowersOfTwo : Prop :=
  ∀ (s : State) (c : Int), s.params.maxLog2 + 2 = s.params.opw → signedRange s.params.opw c →
    ((∃ t, exec (.init c) s = .next t ∧ t.rsp = .status .ok) ↔ ∃ k : Nat, c = 2 ^ k)

/-- 30_encoding.md R79: the example lines assemble to the words given there. -/
def Obligations.ExampleLinesAssemble : Prop :=
  assemble 32 "INIT 8".toList = some 0x8001 ∧ assemble 32 "INIT -1".toList = some 0xFFFFFFFF001 ∧
  assemble 32 "WRAT 7, 'A'".toList = some 0x7417 ∧ assemble 32 "ENQ 'A'".toList = some 0x41D ∧
  assemble 32 "RDAT 8".toList = some 0x8005 ∧ assemble 32 "ENQ 'D' -> FULL".toList = some 0x44D ∧
  assemble 32 "DEQ -> OK 0x41".toList = some 0xF

/-! ### The step -/

/-- 00_scope.md R8, 70_reset_and_hazards.md R176: with `rst = 0`, a step runs the instruction that the
presented word decodes to, on the state with that input taken; with nothing left to present the cycle
is idle (the model's choice, notes/assumptions/6.md). -/
def Obligations.StepRunsThePresentedCommand : Prop :=
  (∀ (s : State) (w : Nat) (rest : List PortIn), s.inputs = { rst := false, cw := w } :: rest →
    step s = exec (decode s.params.opw w) { s with inputs := rest }) ∧
  (∀ s : State, s.inputs = [] → step s = exec .idle s)

/-- 70_reset_and_hazards.md R177: presenting a list of words to the step is running the commands they
decode to: the same responses in the same order, and a step without a response exactly when the run is
bad. -/
def Obligations.PresentedWordsRunTheirCommands : Prop :=
  ∀ (words : List Nat) (s : State),
    (∀ t rs, runCommands (words.map (decode s.params.opw)) s = some (t, rs) →
      observe words.length (presentAll s words) = rs.map some) ∧
    (runCommands (words.map (decode s.params.opw)) s = none →
      none ∈ observe words.length (presentAll s words))

/-- 70_reset_and_hazards.md R171, 60_exceptions.md R152: without an INIT, a run from reset is bad exactly
when it presents an operation at all; idle cycles are free. -/
def Obligations.NoOperationIsLegalBeforeInit : Prop :=
  ∀ words : List Nat, (∀ w ∈ words, w % 16 ≠ 1) → (BadRun words ↔ ∃ w ∈ words, w % 2 = 1)

/-- 70_reset_and_hazards.md R170: a cycle with `rst = 1` completes in every state, whatever the command:
no buffer, no response, the input taken and the parameters kept; nothing is said of the rest. -/
def Obligations.ResetCycleDropsBuffer : Prop :=
  ∀ (s : State) (w : Nat) (rest : List PortIn), s.inputs = { rst := true, cw := w } :: rest →
    ∃ t, step s = .next t ∧ t.alloc = false ∧ t.rsp = .noResponse ∧ t.inputs = rest ∧ t.params = s.params

/-- 60_exceptions.md R154: the order of decision within a cycle: reset, IDLE, INIT, the fault, then the
operation's own single check. -/
def Obligations.DecisionOrderOfACycle : Prop :=
  ∀ (s : State) (x : PortIn) (rest : List PortIn), s.inputs = x :: rest →
    (x.rst = true → ∃ t, step s = .next t ∧ t.alloc = false ∧ t.rsp = .noResponse) ∧
    (x.rst = false → x.cw % 2 = 0 → step s = .next { s with inputs := rest, rsp := .noResponse }) ∧
    (x.rst = false → x.cw % 16 = 1 →
      step s = exec (.init (cwInt s.params.opw x.cw)) { s with inputs := rest } ∧ ∃ t, step s = .next t) ∧
    (x.rst = false → x.cw % 2 = 1 → x.cw % 16 ≠ 1 → s.alloc = false →
      step s = .fault .useWhileUnallocated) ∧
    (x.rst = false → x.cw % 2 = 1 → x.cw % 16 ≠ 1 → s.alloc = true → BufferOk s →
      ∃ t, step s = .next t ∧
        (t.rsp = .status .invalid ↔
          (x.cw % 16 = 5 ∨ x.cw % 16 = 7) ∧
            (cwInt s.params.opw x.cw < 0 ∨ (s.capacity : Int) ≤ cwInt s.params.opw x.cw)) ∧
        (t.rsp = .status .full ↔ x.cw % 16 = 13 ∧ len s = s.capacity - 1) ∧
        (t.rsp = .status .empty ↔ x.cw % 16 = 15 ∧ len s = 0))

/-! ### Failures and the fault -/

/-- 60_exceptions.md R150: each failure status, exactly when; and `rsp_val` is 0 on each. -/
def Obligations.FailureStatusesExactlyWhen : Prop :=
  (∀ i s t, exec i s = .next t →
    (t.rsp = .status .invalid ↔
      (∃ c, i = .init c ∧ ¬ (0 < c ∧ (∃ k : Nat, c = 2 ^ k) ∧ c ≤ 2 ^ s.params.maxLog2)) ∨
      (∃ p, (i = .rdat p ∨ ∃ v, i = .wrat p v) ∧ (p < 0 ∨ (s.capacity : Int) ≤ p))) ∧
    (t.rsp = .status .empty ↔ i = .deq ∧ len s = 0) ∧
    (t.rsp = .status .full ↔ (∃ v, i = .enq v) ∧ (len s : Int) = s.capacity - 1)) ∧
  (∀ e, (Rsp.status e).valPort = 0)

/-- 60_exceptions.md R151: a command that answers a failure changes nothing, fails again the same way,
and leaves nothing behind that a later command could see. -/
def Obligations.FailureChangesNothing : Prop :=
  (∀ i s t e, exec i s = .next t → t.rsp = .status e → e ≠ .ok →
    t = { s with rsp := .status e } ∧ exec i t = .next t) ∧
  (∀ i s r, exec i { s with rsp := r } = exec i s)

/-- 60_exceptions.md R152: the fault `UseWhileUnallocated`, exactly when, in every state: by instruction,
and by the ports of a cycle. -/
def Obligations.UseWhileUnallocatedExactlyWhen : Prop :=
  (∀ i s, exec i s = .fault .useWhileUnallocated ↔
    s.alloc = false ∧ (i = .destroy ∨ (∃ p, i = .rdat p) ∨ (∃ p v, i = .wrat p v) ∨ i = .clear ∨
      i = .len ∨ (∃ v, i = .enq v) ∨ i = .deq)) ∧
  (∀ (s : State) (x : PortIn) (rest : List PortIn), s.inputs = x :: rest →
    (step s = .fault .useWhileUnallocated ↔
      x.rst = false ∧ cwValid x.cw = 1 ∧ s.alloc = false ∧ cwOp x.cw ≠ 0))

/-- 00_scope.md R10: in a state that meets R26, a step completes or is that fault; there is no third
outcome. (The premise is R26's, of the allocated buffer.) -/
def Obligations.StepCompletesOrIsThatFault : Prop :=
  ∀ s : State, (s.alloc = true → BufferOk s) →
    (∃ t, step s = .next t) ∨ step s = .fault .useWhileUnallocated

/-- Every instruction completes on a buffer that meets R26; INIT and IDLE complete in every state
(40_init_destroy.md R100, 45_idle.md R145, 60_exceptions.md R157: every operation is available at all
times, subject only to `alloc`). -/
def Obligations.EveryInstructionCompletesWhileAllocated : Prop :=
  ∀ (i : Instr) (s : State), (s.alloc = true ∧ BufferOk s ∨ i = .idle ∨ ∃ c, i = .init c) →
    ∃ t, exec i s = .next t

/-! ### State, invariant, derived quantities -/

/-- 10_state.md R32 and R25: after reset the block holds no buffer, and only IDLE and INIT are legal. That the
reset state has the parameters `Params.reference` is the model's own choice (DESIGN CHOICE, notes/assumptions/1.md):
00_scope.md R5 names the values as the reference ones and leaves the parameters open. -/
def Obligations.ResetHoldsNoBuffer : Prop :=
  State.reset.alloc = false ∧ State.reset.params = Params.reference ∧
  ∀ i, i = .idle ∨ (∃ c, i = .init c) ∨ exec i State.reset = .fault .useWhileUnallocated

/-- The invariant holds at reset (10_state.md R26 and R32). -/
def Obligations.InvariantHoldsAtReset : Prop := StateInv State.reset

/-- 10_state.md R26: every step, from every state that meets the invariant, keeps it; and while
allocated the length is at most `capacity - 1` (item 4). -/
def Obligations.StepKeepsInvariant : Prop :=
  ∀ s t, StateInv s → step s = .next t →
    StateInv t ∧ (t.alloc = true → len t ≤ t.capacity - 1)

/-- 10_state.md R27: the length is the cursor distance modulo `capacity`, never negative, never
`capacity`, and the mask form in any width of at least `log2(capacity)` bits gives the same. -/
def Obligations.LengthFormsAgree : Prop :=
  ∀ s : State, BufferOk s →
    (len s : Int) = ((s.wrPtr : Int) - s.rdPtr) % s.capacity ∧
    len s < s.capacity ∧
    len s = (if s.rdPtr ≤ s.wrPtr then s.wrPtr - s.rdPtr else s.wrPtr + s.capacity - s.rdPtr) ∧
    (∀ width, s.capacity ≤ 2 ^ width → lenMasked width s = len s) ∧
    (s.capacity = 1 → s.rdPtr = 0 ∧ s.wrPtr = 0 ∧ len s = 0)

/-- 10_state.md R28: empty and full, from the cursors alone; for capacity 1 both hold. -/
def Obligations.EmptyAndFullFromCursors : Prop :=
  ∀ s : State, BufferOk s →
    (isEmpty s = true ↔ len s = 0) ∧
    (isEmpty s = true ↔ s.wrPtr = s.rdPtr) ∧
    (isFull s = true ↔ len s = s.capacity - 1) ∧
    (isFull s = true ↔ (s.wrPtr + 1) % s.capacity = s.rdPtr) ∧
    (s.capacity = 1 → isEmpty s = true ∧ isFull s = true)

/-- 44_fifo_protocol.md R133: the cursor increment, by cases and in mask form. -/
def Obligations.CursorIncrementForms : Prop :=
  ∀ (k x : Nat), x < 2 ^ k →
    nextCursor (2 ^ k) x = (if x < 2 ^ k - 1 then x + 1 else 0) ∧
    nextCursorMasked (2 ^ k) x = nextCursor (2 ^ k) x

/-- 10_state.md R33 with R21, R23, R24, R25: which operation may write which item. The parameters and
the pending inputs are written by none. -/
def Obligations.OnlyTheseOperationsWrite : Prop :=
  ∀ i s t, exec i s = .next t →
    t.params = s.params ∧ t.inputs = s.inputs ∧
    (t.alloc = s.alloc ∨ (∃ c, i = .init c ∧ t.rsp = .status .ok ∧ t.alloc = true) ∨
      (i = .destroy ∧ t.alloc = false)) ∧
    (t.capacity = s.capacity ∨ ∃ c, i = .init c ∧ t.rsp = .status .ok ∧ (t.capacity : Int) = c) ∧
    (t.rdPtr = s.rdPtr ∨ (∃ c, i = .init c ∧ t.rsp = .status .ok ∧ t.rdPtr = 0) ∨
      (i = .clear ∧ t.rdPtr = 0) ∨
      (i = .deq ∧ (∃ b, t.rsp = .byte b) ∧ t.rdPtr = (s.rdPtr + 1) % s.capacity)) ∧
    (t.wrPtr = s.wrPtr ∨ (∃ c, i = .init c ∧ t.rsp = .status .ok ∧ t.wrPtr = 0) ∨
      (i = .clear ∧ t.wrPtr = 0) ∨
      ((∃ v, i = .enq v) ∧ t.rsp = .status .ok ∧ t.wrPtr = (s.wrPtr + 1) % s.capacity)) ∧
    (∀ a, t.storage.read a = s.storage.read a ∨ i = .destroy ∨
      (∃ c, i = .init c ∧ t.rsp = .status .ok ∧ t.storage.read a = 0) ∨
      (i = .clear ∧ t.storage.read a = 0) ∨
      (∃ p v, i = .wrat p v ∧ p = a ∧ t.rsp = .status .ok ∧ t.storage.read a = v) ∨
      (∃ v, i = .enq v ∧ a = s.wrPtr ∧ t.rsp = .status .ok ∧ t.storage.read a = v))

/-- 10_state.md R32 (92_eei_decisions.md D11, D12): what is unspecified is never observed: two states
that differ only in it give the same responses, and fault at the same step, for ever. -/
def Obligations.UnspecifiedStateIsNeverObserved : Prop :=
  ∀ (n : Nat) (s t : State), SameView s t → observe n s = observe n t

/-- 41_positional_access.md R110: what RDAT answers does not depend on the cursors. -/
def Obligations.RdatDoesNotSeeTheCursors : Prop :=
  ∀ (s : State) (p : Int) (rd wr : Nat),
    (∃ r, exec (.rdat p) s = .next { s with rsp := r } ∧
      exec (.rdat p) { s with rdPtr := rd, wrPtr := wr } = .next { s with rdPtr := rd, wrPtr := wr, rsp := r }) ∨
    (∃ f, exec (.rdat p) s = .fault f ∧ exec (.rdat p) { s with rdPtr := rd, wrPtr := wr } = .fault f)

/-! ### Memory -/

/-- 20_memory.md R51 and R50: the two primitives require `alloc = 1` and a slot of `[0, capacity)`; there a
write is read back and leaves every other slot. Elsewhere neither answers anything (the model's own way to say
that they are not defined there, notes/assumptions/7.md). -/
def Obligations.MemoryPrimitivesOnTheirDomain : Prop :=
  ∀ (s : State) (a : Nat) (v : Byte),
    (s.alloc = true → a < s.capacity → memRead s a = some (s.storage.read a) ∧
      ∃ m, memWrite s a v = some { s with storage := m } ∧ m.read a = v ∧
        ∀ b, b ≠ a → m.read b = s.storage.read b) ∧
    (s.alloc = false ∨ s.capacity ≤ a → memRead s a = none ∧ memWrite s a v = none)

/-- 20_memory.md R59: (a) WRAT then RDAT, (b) ENQ then RDAT of the slot the write cursor named, (c) WRAT
to the slot `rd_ptr` names, then DEQ. -/
def Obligations.ReadReturnsLatestWrite : Prop :=
  ∀ (s : State) (v : Byte), s.alloc = true → BufferOk s →
    (∀ p : Int, 0 ≤ p → p < s.capacity →
      ∃ t, exec (.wrat p v) s = .next t ∧ exec (.rdat p) t = .next { t with rsp := .byte v }) ∧
    (len s ≠ s.capacity - 1 →
      ∃ t, exec (.enq v) s = .next t ∧ exec (.rdat s.wrPtr) t = .next { t with rsp := .byte v }) ∧
    (len s ≠ 0 →
      ∃ t u, exec (.wrat s.rdPtr v) s = .next t ∧ exec .deq t = .next u ∧ u.rsp = .byte v)

/-- 20_memory.md R57: after a successful INIT and after CLEAR, RDAT of every slot answers 0. -/
def Obligations.ZeroFillReadsZero : Prop :=
  ∀ (s t : State) (i : Instr), exec i s = .next t → t.rsp = .status .ok →
    ((∃ c, i = .init c) ∨ i = .clear) →
    ∀ p : Int, 0 ≤ p → p < t.capacity → exec (.rdat p) t = .next { t with rsp := .byte 0 }

/-- 20_memory.md R64: DEQ does not erase: RDAT of the slot it read still answers the byte. -/
def Obligations.DeqLeavesTheByteInItsSlot : Prop :=
  ∀ (s t : State) (b : Byte), exec .deq s = .next t → t.rsp = .byte b →
    t.storage = s.storage ∧ exec (.rdat s.rdPtr) t = .next { t with rsp := .byte b }

/-- 42_clear.md R120: CLEAR leaves what a successful INIT with the current capacity leaves. -/
def Obligations.ClearIsInitWithTheSameCapacity : Prop :=
  ∀ s : State, s.alloc = true → BufferOk s → exec .clear s = exec (.init s.capacity) s

/-! ### The queue -/

/-- 44_fifo_protocol.md R132: occupancy accounting, by command and counted over a run. -/
def Obligations.OccupancyAccounting : Prop :=
  (∀ i s t, s.alloc = true → BufferOk s → exec i s = .next t →
    (∀ v, i = .enq v → t.rsp = .status .ok → len s + 2 ≤ s.capacity ∧ len t = len s + 1) ∧
    (∀ b, i = .deq → t.rsp = .byte b → 1 ≤ len s ∧ len t = len s - 1) ∧
    (((∃ c, i = .init c) ∨ i = .clear) → t.rsp = .status .ok → len t = 0) ∧
    ((∃ p, i = .rdat p) ∨ (∃ p v, i = .wrat p v) ∨ i = .len ∨ i = .idle ∨
      t.rsp = .status .full ∨ t.rsp = .status .empty ∨ t.rsp = .status .invalid → len t = len s)) ∧
  (∀ (cmds : List Instr) (s t : State) (rs : List Rsp), s.alloc = true → BufferOk s →
    (∀ i ∈ cmds, i ≠ .clear ∧ i ≠ .destroy ∧ ∀ c, i ≠ .init c) → runCommands cmds s = some (t, rs) →
    len t + (dequeued cmds rs).length = len s + (enqueued cmds rs).length ∧ len t ≤ s.capacity - 1)

/-- 44_fifo_protocol.md R134: on its logical content the block is a bounded queue: one refinement step
for each command. -/
def Obligations.BlockRefinesABoundedQueue : Prop :=
  ∀ s : State, s.alloc = true → BufferOk s →
    (queue s).length = len s ∧
    (∀ v, ∃ t, exec (.enq v) s = .next t ∧
      (if (queue s).length = s.capacity - 1 then t.rsp = .status .full ∧ queue t = queue s
       else t.rsp = .status .ok ∧ queue t = queue s ++ [v])) ∧
    (∃ t, exec .deq s = .next t ∧
      (match queue s with
       | [] => t.rsp = .status .empty ∧ queue t = []
       | b :: q => t.rsp = .byte b ∧ queue t = q)) ∧
    (∃ t, exec .len s = .next t ∧ t.rsp = .len (queue s).length ∧ queue t = queue s) ∧
    (∃ t, exec .clear s = .next t ∧ t.rsp = .status .ok ∧ queue t = []) ∧
    (∀ p, ∃ t, exec (.rdat p) s = .next t ∧ queue t = queue s) ∧
    (∀ c t, exec (.init c) s = .next t → queue t = if t.rsp = .status .ok then [] else queue s)

/-- 44_fifo_protocol.md R134: FIFO order over every run with no WRAT that starts on a buffer: every
command completes, and what was queued and then accepted comes out in that order. From an empty queue
(a successful INIT, a CLEAR) the bytes dequeued are a prefix of the bytes enqueued. -/
def Obligations.FifoOrderOverRuns : Prop :=
  ∀ (cmds : List Instr) (s : State), s.alloc = true → BufferOk s → (∀ i ∈ cmds, fifoOrRead i = true) →
    ∃ t rs, runCommands cmds s = some (t, rs) ∧ t.alloc = true ∧ BufferOk t ∧
      dequeued cmds rs ++ queue t = queue s ++ enqueued cmds rs

/-- 44_fifo_protocol.md R135: how many consecutive ENQs and DEQs succeed from any allocated state, and
that one DEQ after `FULL` makes room for exactly one ENQ. -/
def Obligations.UsableCapacityIsCapacityMinusOne : Prop :=
  ∀ s : State, s.alloc = true → BufferOk s →
    (∀ vs : List Byte, ∃ t, runCommands (vs.map .enq) s =
      some (t, List.replicate (min vs.length (room s)) (.status .ok) ++
               List.replicate (vs.length - room s) (.status .full))) ∧
    (∀ n : Nat, ∃ t, runCommands (List.replicate n .deq) s =
      some (t, ((queue s).take n).map .byte ++ List.replicate (n - len s) (.status .empty))) ∧
    (∀ t b, len s = s.capacity - 1 → exec .deq s = .next t → t.rsp = .byte b → room t = 1)

/-- 70_reset_and_hazards.md R171: after an INIT that answers `OK`, from any state with legal parameters,
the buffer meets R26 and is empty, and every command completes. -/
def Obligations.InitMakesEveryCommandLegal : Prop :=
  ∀ (s t : State) (c : Int), s.params.Ok → exec (.init c) s = .next t → t.rsp = .status .ok →
    t.alloc = true ∧ BufferOk t ∧ queue t = [] ∧ ∀ i, ∃ u, exec i t = .next u

/-- 30_encoding.md R75: a returned length fits in `val` with its top two bits 0; a returned byte is 0 to
255. -/
def Obligations.ReturnedValuesFit : Prop :=
  ∀ i s t, StateInv s → exec i s = .next t →
    (∀ n, t.rsp = .len n → n < 2 ^ (t.params.opw - 2)) ∧
    (∀ b, t.rsp = .byte b → t.rsp.valPort ≤ 255) ∧
    (8 ≤ t.params.opw → t.rsp.word < 2 ^ t.params.rwWidth)
end

