-- ==== Sys2Proof/Laws/Decode.lean ====
section
/-!
SUPPORT. The fields of a packed word and the decoder by low nibble (30_encoding.md R71, R73).
-/
namespace Sys2Proof

theorem cwValid_eq (w : Nat) : cwValid w = w % 2 := by simp [cwValid, bits]
theorem cwOp_eq (w : Nat) : cwOp w = w / 2 % 8 := by simp [cwOp, bits]

/-- The decoder by the low nibble of the word (R73). -/
theorem decode_eq (opw : Nat) (w : Nat) :
    decode opw w =
      if w % 2 = 0 then .idle
      else if w % 16 = 1 then .init (cwInt opw w)
      else if w % 16 = 3 then .destroy
      else if w % 16 = 5 then .rdat (cwInt opw w)
      else if w % 16 = 7 then .wrat (cwInt opw w) (cwData w)
      else if w % 16 = 9 then .clear
      else if w % 16 = 11 then .len
      else if w % 16 = 13 then .enq (cwData w)
      else .deq := by
  unfold decode
  rw [cwValid_eq, cwOp_eq]
  by_cases h : w % 2 = 0
  · simp [h]
  · have h8 : w / 2 % 8 < 8 := Nat.mod_lt _ (by norm_num)
    have h16 : w % 16 = 2 * (w / 2 % 8) + 1 := by omega
    rw [if_neg h, if_neg h, h16]
    generalize w / 2 % 8 = op at h8
    interval_cases op <;> rfl

/-- The packed word's low nibble. -/
theorem packWord_mod16 (arg data op valid : Nat) (ho : op < 8) (hv : valid < 2) :
    packWord arg data op valid % 16 = op * 2 + valid := by
  unfold packWord
  omega

/-- The packed word's `arg` field. -/
theorem packWord_arg (arg data op valid : Nat) (hd : data < 256) (ho : op < 8) (hv : valid < 2) :
    packWord arg data op valid / 2 ^ 12 = arg := by
  unfold packWord
  omega

/-- The packed word's `data` field. -/
theorem packWord_data (arg data op valid : Nat) (hd : data < 256) (ho : op < 8) (hv : valid < 2) :
    packWord arg data op valid / 2 ^ 4 % 256 = data := by
  unfold packWord
  omega

/-- The `arg` field that holds a signed integer fits its width. -/
theorem argField_lt (opw : Nat) (x : Int) : argField opw x < 2 ^ opw := by
  unfold argField
  have := Int.emod_lt_of_pos x (b := 2 ^ opw) (by positivity)
  zify
  rw [Int.toNat_of_nonneg (Int.emod_nonneg _ (by positivity))]
  exact this

/-- A packed word fits the port (R71). -/
theorem packWord_lt {opw arg data op valid : Nat} (ha : arg < 2 ^ opw) (hd : data < 256) (ho : op < 8)
    (hv : valid < 2) : packWord arg data op valid < 2 ^ (opw + 12) := by
  unfold packWord
  rw [pow_add]
  omega

end Sys2Proof
end

