-- ==== Sys2Proof/Laws/Flags.lean ====
section
/-!
SUPPORT. The derived length and the cursor increment: their values while the cursors are in range.
-/
namespace Sys2Proof.Machine

/-- The length in natural numbers (10_state.md R27, 43_length.md R125). -/
theorem len_cases {s : State} (hr : s.rdPtr < s.capacity) (hw : s.wrPtr < s.capacity) :
    (s.rdPtr ≤ s.wrPtr ∧ len s = s.wrPtr - s.rdPtr) ∨
    (s.wrPtr < s.rdPtr ∧ len s = s.wrPtr + s.capacity - s.rdPtr) := by
  unfold len
  rcases Nat.lt_or_ge s.wrPtr s.rdPtr with h | h
  · refine .inr ⟨h, ?_⟩
    have e : ((s.wrPtr : Int) - s.rdPtr) % s.capacity = (s.wrPtr : Int) - s.rdPtr + s.capacity := by
      rw [← Int.add_emod_right, Int.emod_eq_of_lt (by omega) (by omega)]
    omega
  · refine .inl ⟨h, ?_⟩
    rw [Int.emod_eq_of_lt (by omega) (by omega)]
    omega

/-- The length is a residue modulo `capacity` (10_state.md R26, item 4). -/
theorem len_lt {s : State} (hc : 0 < s.capacity) : len s < s.capacity := by
  unfold len
  have := Int.emod_lt_of_pos ((s.wrPtr : Int) - s.rdPtr) (b := s.capacity) (by omega)
  have := Int.emod_nonneg ((s.wrPtr : Int) - s.rdPtr) (b := s.capacity) (by omega)
  omega

/-- `wr_ptr` is the slot after the queued ones (44_fifo_protocol.md R134). -/
theorem wrPtr_eq {s : State} (hr : s.rdPtr < s.capacity) (hw : s.wrPtr < s.capacity) :
    (s.rdPtr + len s) % s.capacity = s.wrPtr := by
  rcases len_cases hr hw with ⟨h, e⟩ | ⟨h, e⟩
  · rw [e, Nat.add_sub_cancel' h, Nat.mod_eq_of_lt hw]
  · have : s.rdPtr + len s = s.wrPtr + s.capacity := by omega
    rw [this, Nat.add_mod_right, Nat.mod_eq_of_lt hw]

/-- The cursor increment by cases (44_fifo_protocol.md R133). -/
theorem nextCursor_cases {c x : Nat} (h : x < c) :
    (x + 1 < c ∧ nextCursor c x = x + 1) ∨ (x + 1 = c ∧ nextCursor c x = 0) := by
  unfold nextCursor
  rcases Nat.lt_or_ge (x + 1) c with h1 | h1
  · exact .inl ⟨h1, Nat.mod_eq_of_lt h1⟩
  · have : x + 1 = c := by omega
    exact .inr ⟨this, by rw [this, Nat.mod_self]⟩

/-- The cursor increment stays in range. -/
theorem nextCursor_lt {c x : Nat} (h : 0 < c) : nextCursor c x < c := Nat.mod_lt _ h

/-- The length depends on the cursors and the capacity alone. -/
theorem len_congr {s t : State} (hc : t.capacity = s.capacity) (hr : t.rdPtr = s.rdPtr)
    (hw : t.wrPtr = s.wrPtr) : len t = len s := by
  simp [len, hc, hr, hw]

/-- Fullness depends on the cursors and the capacity alone. -/
theorem isFull_congr {s t : State} (hc : t.capacity = s.capacity) (hr : t.rdPtr = s.rdPtr)
    (hw : t.wrPtr = s.wrPtr) : isFull t = isFull s := by
  simp [isFull, len_congr hc hr hw, hc]

/-- Emptiness depends on the cursors and the capacity alone. -/
theorem isEmpty_congr {s t : State} (hc : t.capacity = s.capacity) (hr : t.rdPtr = s.rdPtr)
    (hw : t.wrPtr = s.wrPtr) : isEmpty t = isEmpty s := by
  simp [isEmpty, len_congr hc hr hw]

/-- `is_full()` in natural numbers, for a capacity of at least 1. -/
theorem isFull_iff_len {s : State} (hc : 0 < s.capacity) : isFull s = true ↔ len s = s.capacity - 1 := by
  simp only [isFull, decide_eq_true_eq]
  omega

/-- `is_empty()` is length 0. -/
theorem isEmpty_iff_len {s : State} : isEmpty s = true ↔ len s = 0 := by simp [isEmpty]

end Sys2Proof.Machine
end

