-- ==== Sys2Proof/Laws/State.lean ====
section
/-!
SUPPORT. Each named update of the state, field by field, so that no proof unfolds a record update.
-/
namespace Sys2Proof.Machine

@[simp] theorem createBuffer_params (n : Nat) (s : State) : (createBuffer n s).params = s.params := rfl
@[simp] theorem createBuffer_alloc (n : Nat) (s : State) : (createBuffer n s).alloc = true := rfl
@[simp] theorem createBuffer_capacity (n : Nat) (s : State) : (createBuffer n s).capacity = n := rfl
@[simp] theorem createBuffer_rdPtr (n : Nat) (s : State) : (createBuffer n s).rdPtr = 0 := rfl
@[simp] theorem createBuffer_wrPtr (n : Nat) (s : State) : (createBuffer n s).wrPtr = 0 := rfl
@[simp] theorem createBuffer_storage (n : Nat) (s : State) : (createBuffer n s).storage = Storage.zeroFilled := rfl
@[simp] theorem createBuffer_rsp (n : Nat) (s : State) : (createBuffer n s).rsp = s.rsp := rfl
@[simp] theorem createBuffer_inputs (n : Nat) (s : State) : (createBuffer n s).inputs = s.inputs := rfl
@[simp] theorem createBuffer_draws (n : Nat) (s : State) : (createBuffer n s).draws = s.draws := rfl

@[simp] theorem clearBuffer_params (s : State) : (clearBuffer s).params = s.params := rfl
@[simp] theorem clearBuffer_alloc (s : State) : (clearBuffer s).alloc = s.alloc := rfl
@[simp] theorem clearBuffer_capacity (s : State) : (clearBuffer s).capacity = s.capacity := rfl
@[simp] theorem clearBuffer_rdPtr (s : State) : (clearBuffer s).rdPtr = 0 := rfl
@[simp] theorem clearBuffer_wrPtr (s : State) : (clearBuffer s).wrPtr = 0 := rfl
@[simp] theorem clearBuffer_storage (s : State) : (clearBuffer s).storage = Storage.zeroFilled := rfl
@[simp] theorem clearBuffer_rsp (s : State) : (clearBuffer s).rsp = s.rsp := rfl
@[simp] theorem clearBuffer_inputs (s : State) : (clearBuffer s).inputs = s.inputs := rfl
@[simp] theorem clearBuffer_draws (s : State) : (clearBuffer s).draws = s.draws := rfl

@[simp] theorem releaseBuffer_params (s : State) : (releaseBuffer s).params = s.params := rfl
@[simp] theorem releaseBuffer_alloc (s : State) : (releaseBuffer s).alloc = false := rfl
@[simp] theorem releaseBuffer_capacity (s : State) : (releaseBuffer s).capacity = s.capacity := rfl
@[simp] theorem releaseBuffer_rdPtr (s : State) : (releaseBuffer s).rdPtr = s.rdPtr := rfl
@[simp] theorem releaseBuffer_wrPtr (s : State) : (releaseBuffer s).wrPtr = s.wrPtr := rfl
@[simp] theorem releaseBuffer_storage (s : State) : (releaseBuffer s).storage = Storage.unspecified s.draws := rfl
@[simp] theorem releaseBuffer_rsp (s : State) : (releaseBuffer s).rsp = s.rsp := rfl
@[simp] theorem releaseBuffer_inputs (s : State) : (releaseBuffer s).inputs = s.inputs := rfl
@[simp] theorem releaseBuffer_draws (s : State) : (releaseBuffer s).draws = s.draws + 1 := rfl

@[simp] theorem takeReset_params (s : State) : (takeReset s).params = s.params := rfl
@[simp] theorem takeReset_alloc (s : State) : (takeReset s).alloc = false := rfl
@[simp] theorem takeReset_capacity (s : State) : (takeReset s).capacity = Config.freeCapacity s.draws % 2 ^ s.params.capacityWidth := rfl
@[simp] theorem takeReset_rdPtr (s : State) : (takeReset s).rdPtr = Config.freeReadPtr s.draws % 2 ^ s.params.cursorWidth := rfl
@[simp] theorem takeReset_wrPtr (s : State) : (takeReset s).wrPtr = Config.freeWritePtr s.draws % 2 ^ s.params.cursorWidth := rfl
@[simp] theorem takeReset_storage (s : State) : (takeReset s).storage = Storage.unspecified s.draws := rfl
@[simp] theorem takeReset_rsp (s : State) : (takeReset s).rsp = .noResponse := rfl
@[simp] theorem takeReset_inputs (s : State) : (takeReset s).inputs = s.inputs := rfl
@[simp] theorem takeReset_draws (s : State) : (takeReset s).draws = s.draws + 1 := rfl

@[simp] theorem advanceWrite_params (s : State) : (advanceWrite s).params = s.params := rfl
@[simp] theorem advanceWrite_alloc (s : State) : (advanceWrite s).alloc = s.alloc := rfl
@[simp] theorem advanceWrite_capacity (s : State) : (advanceWrite s).capacity = s.capacity := rfl
@[simp] theorem advanceWrite_rdPtr (s : State) : (advanceWrite s).rdPtr = s.rdPtr := rfl
@[simp] theorem advanceWrite_wrPtr (s : State) : (advanceWrite s).wrPtr = nextCursor s.capacity s.wrPtr := rfl
@[simp] theorem advanceWrite_storage (s : State) : (advanceWrite s).storage = s.storage := rfl
@[simp] theorem advanceWrite_rsp (s : State) : (advanceWrite s).rsp = s.rsp := rfl
@[simp] theorem advanceWrite_inputs (s : State) : (advanceWrite s).inputs = s.inputs := rfl
@[simp] theorem advanceWrite_draws (s : State) : (advanceWrite s).draws = s.draws := rfl

@[simp] theorem advanceRead_params (s : State) : (advanceRead s).params = s.params := rfl
@[simp] theorem advanceRead_alloc (s : State) : (advanceRead s).alloc = s.alloc := rfl
@[simp] theorem advanceRead_capacity (s : State) : (advanceRead s).capacity = s.capacity := rfl
@[simp] theorem advanceRead_rdPtr (s : State) : (advanceRead s).rdPtr = nextCursor s.capacity s.rdPtr := rfl
@[simp] theorem advanceRead_wrPtr (s : State) : (advanceRead s).wrPtr = s.wrPtr := rfl
@[simp] theorem advanceRead_storage (s : State) : (advanceRead s).storage = s.storage := rfl
@[simp] theorem advanceRead_rsp (s : State) : (advanceRead s).rsp = s.rsp := rfl
@[simp] theorem advanceRead_inputs (s : State) : (advanceRead s).inputs = s.inputs := rfl
@[simp] theorem advanceRead_draws (s : State) : (advanceRead s).draws = s.draws := rfl

@[simp] theorem presentWord_params (s : State) (w : Nat) : (presentWord s w).params = s.params := rfl
@[simp] theorem presentWord_alloc (s : State) (w : Nat) : (presentWord s w).alloc = s.alloc := rfl
@[simp] theorem presentWord_capacity (s : State) (w : Nat) : (presentWord s w).capacity = s.capacity := rfl
@[simp] theorem presentWord_rdPtr (s : State) (w : Nat) : (presentWord s w).rdPtr = s.rdPtr := rfl
@[simp] theorem presentWord_wrPtr (s : State) (w : Nat) : (presentWord s w).wrPtr = s.wrPtr := rfl
@[simp] theorem presentWord_storage (s : State) (w : Nat) : (presentWord s w).storage = s.storage := rfl
@[simp] theorem presentWord_rsp (s : State) (w : Nat) : (presentWord s w).rsp = s.rsp := rfl
@[simp] theorem presentWord_inputs (s : State) (w : Nat) : (presentWord s w).inputs = { rst := false, cw := w } :: s.inputs.tail := rfl
@[simp] theorem presentWord_draws (s : State) (w : Nat) : (presentWord s w).draws = s.draws := rfl

end Sys2Proof.Machine
end

