-- ==== Sys2Proof/Laws/Storage.lean ====
section
/-!
SUPPORT. The laws of the storage: a read after a write, and the canonical form, kept by every operation.
-/
namespace Sys2Proof.Machine

theorem lookupCell_eraseCell_same (l : List Host.Cell) (a : Nat) : lookupCell (eraseCell l a) a = none := by
  induction l with
  | nil => rfl
  | cons c l ih =>
    obtain ⟨b, w⟩ := c
    by_cases h : b = a
    · simpa [eraseCell, h] using ih
    · simpa [eraseCell, h, lookupCell] using ih

theorem lookupCell_eraseCell_other (l : List Host.Cell) {a b : Nat} (h : b ≠ a) :
    lookupCell (eraseCell l a) b = lookupCell l b := by
  induction l with
  | nil => rfl
  | cons c l ih =>
    obtain ⟨d, w⟩ := c
    by_cases hd : d = a
    · have : d ≠ b := fun e => h (e.symm.trans hd)
      simpa [eraseCell, hd, lookupCell, Ne.symm h] using ih
    · by_cases hb : d = b
      · simp [eraseCell, lookupCell, hb, h]
      · simpa [eraseCell, hd, lookupCell, hb] using ih

theorem lookupCell_insertCell_same (l : List Host.Cell) (a : Nat) (v : Byte) :
    lookupCell (insertCell l a v) a = some v := by
  induction l with
  | nil => simp [insertCell, lookupCell]
  | cons c l ih =>
    obtain ⟨b, w⟩ := c
    simp only [insertCell]
    split
    · simp [lookupCell]
    · split
      · simp [lookupCell]
      · simp [lookupCell, *]

theorem lookupCell_insertCell_other (l : List Host.Cell) {a b : Nat} (v : Byte) (h : b ≠ a) :
    lookupCell (insertCell l a v) b = lookupCell l b := by
  induction l with
  | nil => simp [insertCell, lookupCell, Ne.symm h]
  | cons c l ih =>
    obtain ⟨d, w⟩ := c
    simp only [insertCell]
    split
    · simp [lookupCell, Ne.symm h]
    · split
      · subst d; simp [lookupCell, Ne.symm h]
      · simp only [lookupCell, ih]

/-- A slot reads the byte last written to it (20_memory.md R59). -/
theorem read_write_same (m : Storage) (a : Nat) (v : Byte) : (m.write a v).read a = v := by
  unfold Storage.read Storage.write
  split
  · simp [lookupCell_eraseCell_same, *]
  · simp [lookupCell_insertCell_same]

/-- A write leaves every other slot as it was. -/
theorem read_write_other (m : Storage) {a b : Nat} (v : Byte) (h : b ≠ a) :
    (m.write a v).read b = m.read b := by
  unfold Storage.read Storage.write
  split
  · simp [lookupCell_eraseCell_other _ h]
  · simp [lookupCell_insertCell_other _ _ h]

/-- A zero-filled slot reads 0 (20_memory.md R57). -/
theorem read_zeroFilled (a : Nat) : Storage.zeroFilled.read a = 0 := rfl

theorem write_fill (m : Storage) (a : Nat) (v : Byte) : (m.write a v).fill = m.fill := rfl

theorem mem_insertCell {l : List Host.Cell} {a : Nat} {v : Byte} {c : Host.Cell}
    (h : c ∈ insertCell l a v) : c = (a, v) ∨ c ∈ l := by
  induction l with
  | nil => simpa [insertCell] using h
  | cons d l ih =>
    obtain ⟨b, w⟩ := d
    simp only [insertCell] at h
    split at h
    · simpa using h
    · split at h
      · simp only [List.mem_cons] at h ⊢; tauto
      · rcases List.mem_cons.1 h with h | h
        · exact .inr (by simp [h])
        · rcases ih h with h | h
          · exact .inl h
          · exact .inr (List.mem_cons_of_mem _ h)

theorem insertCell_sorted {l : List Host.Cell} (a : Nat) (v : Byte)
    (h : l.Pairwise fun c d => c.1 < d.1) : (insertCell l a v).Pairwise fun c d => c.1 < d.1 := by
  induction l with
  | nil => simp [insertCell]
  | cons e l ih =>
    obtain ⟨b, w⟩ := e
    obtain ⟨hb, hl⟩ := List.pairwise_cons.1 h
    simp only [insertCell]
    split
    · rename_i hab
      refine List.pairwise_cons.2 ⟨fun c hc => ?_, h⟩
      rcases List.mem_cons.1 hc with rfl | hc
      · exact hab
      · exact lt_trans hab (hb c hc)
    · split
      · rename_i hba
        exact List.pairwise_cons.2 ⟨fun c hc => hba ▸ hb c hc, hl⟩
      · refine List.pairwise_cons.2 ⟨fun c hc => ?_, ih hl⟩
        rcases mem_insertCell hc with rfl | hc
        · show b < a
          omega
        · exact hb c hc

/-- A cell of the written storage is the written one or was there before. -/
theorem mem_write {m : Storage} {a : Nat} {v : Byte} {c : Host.Cell} (h : c ∈ (m.write a v).cells) :
    (c = (a, v) ∧ v ≠ m.fill.byteAt a) ∨ c ∈ m.cells := by
  unfold Storage.write at h
  split at h
  · exact .inr (List.mem_of_mem_filter h)
  · rename_i hv
    exact (mem_insertCell h).imp_left fun e => ⟨e, hv⟩

/-- A write keeps the canonical form. -/
theorem write_wf {m : Storage} (a : Nat) (v : Byte) (h : m.wf) : (m.write a v).wf := by
  obtain ⟨hs, hne⟩ := h
  refine ⟨?_, fun c hc => ?_⟩
  · unfold Storage.write
    split
    · exact hs.sublist List.filter_sublist
    · exact insertCell_sorted a v hs
  · rcases mem_write hc with ⟨rfl, hv⟩ | hc
    · exact hv
    · exact hne c hc

/-- The zero fill is in canonical form. -/
theorem zeroFilled_wf : Storage.zeroFilled.wf :=
  ⟨List.Pairwise.nil, fun _ h => absurd h List.not_mem_nil⟩

/-- Unspecified contents are in canonical form. -/
theorem unspecified_wf (draw : Nat) : (Storage.unspecified draw).wf :=
  ⟨List.Pairwise.nil, fun _ h => absurd h List.not_mem_nil⟩

/-- A write to a slot below a bound keeps every listed slot below it. -/
theorem write_below {m : Storage} {a n : Nat} {v : Byte} (ha : a < n) (h : ∀ c ∈ m.cells, c.1 < n) :
    ∀ c ∈ (m.write a v).cells, c.1 < n := by
  intro c hc
  rcases mem_write hc with ⟨rfl, -⟩ | hc
  · exact ha
  · exact h c hc

end Sys2Proof.Machine
end

