-- ==== Sys2Proof/Laws/Ops.lean ====
section
/-!
SUPPORT. One lemma per shared operation: everything it can answer. Proofs cite these and do not unfold
the operations.
-/
namespace Sys2Proof.Machine

/-- `respond` answers the state with its response driven, and nothing else. -/
theorem respond_eq_next {r : Rsp} {s t : State} : respond r s = .next t ↔ t = { s with rsp := r } := by
  simp [respond, eq_comm]

/-- `succeed` answers `OK` and the state it is given. -/
theorem succeed_eq_next {s t : State} : succeed s = .next t ↔ t = { s with rsp := .status .ok } :=
  respond_eq_next

/-- `failWith` answers the status and the state it is given. -/
theorem failWith_eq_next {e : Status} {s t : State} :
    failWith e s = .next t ↔ t = { s with rsp := .status e } :=
  respond_eq_next

/-- With a buffer, `requireBuffer` is what follows it. -/
theorem requireBuffer_alloc {s : State} {k : Result} (h : s.alloc = true) : requireBuffer s k = k := by
  simp [requireBuffer, h]

/-- Without a buffer, `requireBuffer` is the fault of R152. -/
theorem requireBuffer_unalloc {s : State} {k : Result} (h : s.alloc = false) :
    requireBuffer s k = .fault .useWhileUnallocated := by
  simp [requireBuffer, h]

/-- `requireBuffer` answers a next state only with a buffer, and then what follows answered it. -/
theorem requireBuffer_eq_next {s t : State} {k : Result} :
    requireBuffer s k = .next t ↔ s.alloc = true ∧ k = .next t := by
  unfold requireBuffer
  split <;> simp [*]

/-- A slot that exists is read. -/
theorem loadThen_inside {s : State} {a : Nat} {k : Byte → Result} (h : HasSlot s a) :
    loadThen s a k = k (s.storage.read a) := by
  simp only [loadThen, memRead, if_pos h]

/-- A slot that does not exist stops the step. -/
theorem loadThen_outside {s : State} {a : Nat} {k : Byte → Result} (h : ¬HasSlot s a) :
    loadThen s a k = .fault .noSuchSlot := by
  simp only [loadThen, memRead, if_neg h]

/-- `loadThen` answers a next state only for a slot that exists, with its byte. -/
theorem loadThen_eq_next {s t : State} {a : Nat} {k : Byte → Result} :
    loadThen s a k = .next t ↔ HasSlot s a ∧ k (s.storage.read a) = .next t := by
  by_cases h : HasSlot s a
  · rw [loadThen_inside h, and_iff_right h]
  · rw [loadThen_outside h]
    simp [h]

/-- A slot that exists is written, and nothing else changes. -/
theorem storeThen_inside {s : State} {a : Nat} {v : Byte} {k : State → Result} (h : HasSlot s a) :
    storeThen s a v k = k { s with storage := s.storage.write a v } := by
  simp only [storeThen, memWrite, if_pos h]

/-- A slot that does not exist stops the step. -/
theorem storeThen_outside {s : State} {a : Nat} {v : Byte} {k : State → Result} (h : ¬HasSlot s a) :
    storeThen s a v k = .fault .noSuchSlot := by
  simp only [storeThen, memWrite, if_neg h]

/-- `storeThen` answers a next state only for a slot that exists, from the state with it written. -/
theorem storeThen_eq_next {s t : State} {a : Nat} {v : Byte} {k : State → Result} :
    storeThen s a v k = .next t ↔
      HasSlot s a ∧ k { s with storage := s.storage.write a v } = .next t := by
  by_cases h : HasSlot s a
  · rw [storeThen_inside h, and_iff_right h]
  · rw [storeThen_outside h]
    simp [h]

/-- A position in range names its slot. -/
theorem absoluteSlot_inside {s : State} {p : Int} (h0 : 0 ≤ p) (h : p < s.capacity) :
    absoluteSlot s p = some p.toNat := by
  simp [absoluteSlot, h0, h]

/-- A position out of range names none. -/
theorem absoluteSlot_outside {s : State} {p : Int} (h : p < 0 ∨ (s.capacity : Int) ≤ p) :
    absoluteSlot s p = none := by
  unfold absoluteSlot
  rw [if_neg]
  omega

/-- A named slot exists. -/
theorem absoluteSlot_eq_some {s : State} {p : Int} {a : Nat} :
    absoluteSlot s p = some a ↔ 0 ≤ p ∧ p < s.capacity ∧ p.toNat = a := by
  unfold absoluteSlot
  split <;> simp_all

/-- `isPow2` is `is_pow2` of 00_scope.md R6. -/
theorem isPow2_iff (c : Int) : isPow2 c = true ↔ ∃ k : Nat, c = 2 ^ k := by
  simp only [isPow2, Bool.and_eq_true, decide_eq_true_eq, beq_iff_eq]
  constructor
  · rintro ⟨h0, h⟩
    refine ⟨c.toNat.log2, ?_⟩
    have : (c.toNat : Int) = ((2 ^ c.toNat.log2 : Nat) : Int) := by rw [← h]
    rw [Int.toNat_of_nonneg h0.le] at this
    simpa using this
  · rintro ⟨k, rfl⟩
    have h : ((2 : Int) ^ k).toNat = 2 ^ k := by
      have : ((2 : Int) ^ k) = ((2 ^ k : Nat) : Int) := by simp
      rw [this, Int.toNat_natCast]
    exact ⟨by positivity, by rw [h, Nat.log2_two_pow]⟩

/-- INIT's test is that of 40_init_destroy.md R100. -/
theorem capacityOk_iff (p : Params) (c : Int) :
    capacityOk p c = true ↔ 0 < c ∧ (∃ k : Nat, c = 2 ^ k) ∧ c ≤ 2 ^ p.maxLog2 := by
  simp [capacityOk, isPow2_iff, Params.maxCapacity, and_assoc]

/-- A capacity INIT accepts is a power of two the physical storage holds. -/
theorem capacityOk_toNat {p : Params} {c : Int} (h : capacityOk p c = true) :
    ∃ k, k ≤ p.maxLog2 ∧ c.toNat = 2 ^ k ∧ c = 2 ^ k := by
  obtain ⟨-, ⟨k, rfl⟩, hle⟩ := (capacityOk_iff p c).1 h
  have h2 : ((2 : Int) ^ k) = ((2 ^ k : Nat) : Int) := by simp
  refine ⟨k, ?_, by rw [h2, Int.toNat_natCast], rfl⟩
  have : (2 : Nat) ^ k ≤ 2 ^ p.maxLog2 := by exact_mod_cast hle
  exact (Nat.pow_le_pow_iff_right (by norm_num)).1 this

end Sys2Proof.Machine
end

