-- ==== Sys2Proof/Laws/Meanings.lean ====
section
/-!
SUPPORT. For each meaning, and for the step, everything it can answer when it answers a next state. Proofs
about next states take these cases and do not unfold a meaning.
-/
namespace Sys2Proof.Machine

theorem execIdle_next {s t : State} (h : execIdle s = .next t) : t = { s with rsp := .noResponse } :=
  respond_eq_next.1 h

theorem execInit_next {s t : State} {c : Int} (h : execInit c s = .next t) :
    (capacityOk s.params c = true ∧ t = { createBuffer c.toNat s with rsp := .status .ok }) ∨
    (capacityOk s.params c = false ∧ t = { s with rsp := .status .invalid }) := by
  unfold execInit at h
  split at h <;> rename_i hc
  · exact .inl ⟨hc, succeed_eq_next.1 h⟩
  · exact .inr ⟨Bool.eq_false_iff.2 hc, failWith_eq_next.1 h⟩

theorem execDestroy_next {s t : State} (h : execDestroy s = .next t) :
    s.alloc = true ∧ t = { releaseBuffer s with rsp := .noResponse } :=
  (requireBuffer_eq_next.1 h).imp_right respond_eq_next.1

theorem execClear_next {s t : State} (h : execClear s = .next t) :
    s.alloc = true ∧ t = { clearBuffer s with rsp := .status .ok } :=
  (requireBuffer_eq_next.1 h).imp_right succeed_eq_next.1

theorem execLen_next {s t : State} (h : execLen s = .next t) :
    s.alloc = true ∧ t = { s with rsp := .len (len s) } :=
  (requireBuffer_eq_next.1 h).imp_right respond_eq_next.1

theorem execRdat_next {s t : State} {p : Int} (h : execRdat p s = .next t) :
    s.alloc = true ∧
    ((0 ≤ p ∧ p < s.capacity ∧ t = { s with rsp := .byte (s.storage.read p.toNat) }) ∨
     ((p < 0 ∨ (s.capacity : Int) ≤ p) ∧ t = { s with rsp := .status .invalid })) := by
  obtain ⟨ha, h⟩ := requireBuffer_eq_next.1 h
  refine ⟨ha, ?_⟩
  by_cases hp : p < 0 ∨ (s.capacity : Int) ≤ p
  · rw [absoluteSlot_outside hp] at h
    exact .inr ⟨hp, failWith_eq_next.1 h⟩
  · rw [absoluteSlot_inside (by omega) (by omega)] at h
    exact .inl ⟨by omega, by omega, respond_eq_next.1 (loadThen_eq_next.1 h).2⟩

theorem execWrat_next {s t : State} {p : Int} {v : Byte} (h : execWrat p v s = .next t) :
    s.alloc = true ∧
    ((0 ≤ p ∧ p < s.capacity ∧
        t = { s with storage := s.storage.write p.toNat v, rsp := .status .ok }) ∨
     ((p < 0 ∨ (s.capacity : Int) ≤ p) ∧ t = { s with rsp := .status .invalid })) := by
  obtain ⟨ha, h⟩ := requireBuffer_eq_next.1 h
  refine ⟨ha, ?_⟩
  by_cases hp : p < 0 ∨ (s.capacity : Int) ≤ p
  · rw [absoluteSlot_outside hp] at h
    exact .inr ⟨hp, failWith_eq_next.1 h⟩
  · rw [absoluteSlot_inside (by omega) (by omega)] at h
    exact .inl ⟨by omega, by omega, succeed_eq_next.1 (storeThen_eq_next.1 h).2⟩

theorem execEnq_next {s t : State} {v : Byte} (h : execEnq v s = .next t) :
    s.alloc = true ∧
    ((isFull s = true ∧ t = { s with rsp := .status .full }) ∨
     (isFull s = false ∧ s.wrPtr < s.capacity ∧
        t = { s with storage := s.storage.write s.wrPtr v, wrPtr := nextCursor s.capacity s.wrPtr,
                     rsp := .status .ok })) := by
  obtain ⟨ha, h⟩ := requireBuffer_eq_next.1 h
  refine ⟨ha, ?_⟩
  split at h <;> rename_i hc
  · exact .inl ⟨hc, failWith_eq_next.1 h⟩
  · obtain ⟨hl, h⟩ := storeThen_eq_next.1 h
    exact .inr ⟨Bool.eq_false_iff.2 hc, hl.2, succeed_eq_next.1 h⟩

theorem execDeq_next {s t : State} (h : execDeq s = .next t) :
    s.alloc = true ∧
    ((isEmpty s = true ∧ t = { s with rsp := .status .empty }) ∨
     (isEmpty s = false ∧ s.rdPtr < s.capacity ∧
        t = { s with rdPtr := nextCursor s.capacity s.rdPtr, rsp := .byte (s.storage.read s.rdPtr) })) := by
  obtain ⟨ha, h⟩ := requireBuffer_eq_next.1 h
  refine ⟨ha, ?_⟩
  split at h <;> rename_i hc
  · exact .inl ⟨hc, failWith_eq_next.1 h⟩
  · obtain ⟨hl, h⟩ := loadThen_eq_next.1 h
    exact .inr ⟨Bool.eq_false_iff.2 hc, hl.2, respond_eq_next.1 h⟩

/-- A step that answers a next state was a reset cycle, a presented command, or an idle cycle with
nothing presented. -/
theorem step_next {s t : State} (h : step s = .next t) :
    (s.inputs = [] ∧ execIdle s = .next t) ∨
    (∃ x rest, s.inputs = x :: rest ∧ x.rst = true ∧ t = takeReset { s with inputs := rest }) ∨
    (∃ x rest, s.inputs = x :: rest ∧ x.rst = false ∧
      exec (decode s.params.opw x.cw) { s with inputs := rest } = .next t) := by
  rcases hi : s.inputs with _ | ⟨x, rest⟩
  · exact .inl ⟨rfl, by simpa [step, fetchCycle, hi, exec] using h⟩
  · cases hx : x.rst
    · exact .inr (.inr ⟨x, rest, rfl, hx, by simpa [step, fetchCycle, hi, hx] using h⟩)
    · exact .inr (.inl ⟨x, rest, rfl, hx, by simpa [step, fetchCycle, hi, hx, eq_comm] using h⟩)

end Sys2Proof.Machine
end

