-- ==== Sys2Proof/Laws/PerInstr.lean ====
section
/-!
SUPPORT. A statement for each instruction as syntax: its canonical word fits the command port, whatever
its operands and the operand width (30_encoding.md R71, R79).
-/
namespace Sys2Proof.Laws.EncodingFits

/-- The canonical word of the instruction fits in `OPW + 12` bits. -/
def Statement (i : Instr) : Prop := ∀ opw, encode opw i < 2 ^ (opw + 12)

theorem idle : Statement .idle := fun _ => packWord_lt (by positivity) (by norm_num) (by norm_num) (by norm_num)

theorem init (c : Int) : Statement (.init c) :=
  fun opw => packWord_lt (argField_lt opw c) (by norm_num) (by norm_num) (by norm_num)

theorem destroy : Statement .destroy :=
  fun _ => packWord_lt (by positivity) (by norm_num) (by norm_num) (by norm_num)

theorem rdat (pos : Int) : Statement (.rdat pos) :=
  fun opw => packWord_lt (argField_lt opw pos) (by norm_num) (by norm_num) (by norm_num)

theorem wrat (pos : Int) (v : Byte) : Statement (.wrat pos v) :=
  fun opw => packWord_lt (argField_lt opw pos) v.isLt (by norm_num) (by norm_num)

theorem clear : Statement .clear :=
  fun _ => packWord_lt (by positivity) (by norm_num) (by norm_num) (by norm_num)

theorem len : Statement .len :=
  fun _ => packWord_lt (by positivity) (by norm_num) (by norm_num) (by norm_num)

theorem enq (v : Byte) : Statement (.enq v) :=
  fun _ => packWord_lt (by positivity) v.isLt (by norm_num) (by norm_num)

theorem deq : Statement .deq :=
  fun _ => packWord_lt (by positivity) (by norm_num) (by norm_num) (by norm_num)

end Sys2Proof.Laws.EncodingFits
end

