-- ==== Sys2Proof/Tests/Slice0.lean ====
section
/-!
SUPPORT. The model's own tests. Expected results come from spec/95_test_vectors.md (S, V and P rows) and the
worked words of spec/30_encoding.md; then one witness for the hypotheses of each statement.
-/
namespace Sys2Proof.Tests
open Sys2Proof Sys2Proof.Machine

/-! ### Helpers -/

/-- An allocated block at the reference parameters. -/
def buf (cap rd wr : Nat) (cells : List Host.Cell) : State :=
  { State.reset with alloc := true, capacity := cap, rdPtr := rd, wrPtr := wr,
                     storage := { fill := .zero, cells := cells } }

/-- The response, cursors and the first `n` slots of a next state. -/
def seen (n : Nat) : Result → Option (Rsp × Nat × Nat × List Byte)
  | .next t => some (t.rsp, t.rdPtr, t.wrPtr, (List.range n).map t.storage.read)
  | .fault _ => none
  | .refused _ => none

/-- Does a step stop with this fault? -/
def faults (f : Fault) : Result → Bool
  | .next _ => false
  | .fault g => g == f
  | .refused _ => false

/-- Capacity 4, two bytes queued in slots 1 and 2. -/
def twoQueued : State := buf 4 1 3 [(1, 0x41), (2, 0x42)]
/-- Capacity 4, full and wrapped. -/
def fullWrapped : State := buf 4 1 0 [(0, 0x01), (1, 0x02), (2, 0x03), (3, 0x04)]
/-- Capacity 4, empty, cursors at the last slot. -/
def emptyAtEnd : State := buf 4 3 3 [(0, 0x41), (1, 0x42), (2, 0x43)]
/-- Capacity 1. -/
def single : State := buf 1 0 0 []

/-! ### WellFormed: an ill-formed term for each check -/

theorem test_init_operand_too_large : (Instr.init 2147483648).wellFormed 32 = false := by decide
theorem test_init_operand_too_small : (Instr.init (-2147483649)).wellFormed 32 = false := by decide
theorem test_rdat_operand_too_large : (Instr.rdat 2147483648).wellFormed 32 = false := by decide
theorem test_rdat_operand_too_small : (Instr.rdat (-2147483649)).wellFormed 32 = false := by decide
theorem test_wrat_operand_too_large : (Instr.wrat 2147483648 0).wellFormed 32 = false := by decide
theorem test_wrat_operand_too_small : (Instr.wrat (-2147483649) 0).wellFormed 32 = false := by decide
theorem test_extreme_operands_well_formed :
    (Instr.init (-2147483648)).wellFormed 32 = true ∧ (Instr.rdat 2147483647).wellFormed 32 = true := by decide

/-! ### Decode: a word of each constructor, bit by bit { arg, data, op, valid } -/

theorem test_decode_idle : decode 32 0x2 = .idle := by decide -- V6 row 3: op 1, valid 0
theorem test_decode_init : decode 32 (8 * 4096 + 0xFF * 16 + 0 * 2 + 1) = .init 8 := by decide -- V6 row 4
theorem test_decode_destroy : decode 32 (0xFFFFFFFF * 4096 + 0 * 16 + 1 * 2 + 1) = .destroy := by decide -- V6 row 9
theorem test_decode_rdat : decode 32 (0xFFFFFFFF * 4096 + 0 * 16 + 2 * 2 + 1) = .rdat (-1) := by decide -- V6 row 10
theorem test_decode_wrat : decode 32 (0x80000000 * 4096 + 0x41 * 16 + 3 * 2 + 1) = .wrat (-2147483648) 0x41 := by decide -- V6 row 12
theorem test_decode_clear : decode 32 (0x123456 * 4096 + 0x78 * 16 + 4 * 2 + 1) = .clear := by decide -- V6 row 8
theorem test_decode_len : decode 32 (0x12345 * 4096 + 0xFF * 16 + 5 * 2 + 1) = .len := by decide -- V6 row 6
theorem test_decode_enq : decode 32 (0xDEADBEEF * 4096 + 0x41 * 16 + 6 * 2 + 1) = .enq 0x41 := by decide -- V6 row 5
theorem test_decode_deq : decode 32 (0xABCDE * 4096 + 0 * 16 + 7 * 2 + 1) = .deq := by decide -- V6 row 7
theorem test_decode_other_width : decode 4 0xF005 = .rdat (-1) := by decide -- R71, R75 at OPW = 4

/-- 30_encoding.md R79: the example words of the encoder. -/
theorem test_encode_examples :
    encode 32 (.init 8) = 0x8001 ∧ encode 32 (.init (-1)) = 0xFFFFFFFF001 ∧
    encode 32 (.wrat 7 0x41) = 0x7417 ∧ encode 32 (.enq 0x41) = 0x41D ∧ encode 32 (.rdat 8) = 0x8005 ∧
    encode 32 .idle = 0 ∧ encode 32 .destroy = 3 ∧ encode 32 .clear = 9 ∧ encode 32 .len = 0xB ∧
    encode 32 .deq = 0xF := by decide

/-! ### One step per instruction -/

-- V1 row 2, and row 8: INVALID leaves a live buffer as it was
theorem test_init_creates : seen 2 (exec (.init 2) State.reset) = some (.status .ok, 0, 0, [0, 0]) := by decide
theorem test_init_refuses : seen 2 (exec (.init 6) (buf 2 0 1 [(0, 0xFF)])) = some (.status .invalid, 0, 1, [0xFF, 0]) := by decide
-- V1 rows 12 and 13
theorem test_destroy_keeps_cursors :
    (match exec .destroy twoQueued with
     | .next t => (t.rsp, t.alloc, t.capacity, t.rdPtr, t.wrPtr)
     | _ => (.noResponse, true, 0, 0, 0)) = (.noResponse, false, 4, 1, 3) := by decide
theorem test_destroy_unallocated : faults .useWhileUnallocated (exec .destroy State.reset) = true := by decide
-- V2 rows 2 and 4
theorem test_rdat_last_slot : seen 0 (exec (.rdat 7) (buf 8 1 1 [(7, 0x33)])) = some (.byte 0x33, 1, 1, []) := by decide
theorem test_rdat_does_not_wrap : seen 0 (exec (.rdat 8) (buf 8 1 1 [(0, 0x5A)])) = some (.status .invalid, 1, 1, []) := by decide
-- V2 rows 9 and 11
theorem test_wrat_zero_byte : seen 4 (exec (.wrat 3 0) (buf 8 1 1 [(0, 0x5A), (3, 0x33)])) = some (.status .ok, 1, 1, [0x5A, 0, 0, 0]) := by decide
theorem test_wrat_negative : seen 2 (exec (.wrat (-1) 0x41) (buf 8 1 1 [(0, 0x5A)])) = some (.status .invalid, 1, 1, [0x5A, 0]) := by decide
-- V3 rows 1 and 5
theorem test_clear : seen 4 (exec .clear (buf 4 3 2 [(0, 0x42), (1, 0x43), (2, 0x43), (3, 0x41)])) = some (.status .ok, 0, 0, [0, 0, 0, 0]) := by decide
theorem test_clear_unallocated : faults .useWhileUnallocated (exec .clear State.reset) = true := by decide
-- V4 rows 6 and 8
theorem test_len_wrapped : seen 0 (exec .len (buf 8 6 1 [])) = some (.len 3, 6, 1, []) := by decide
theorem test_len_full_wrapped : seen 0 (exec .len fullWrapped) = some (.len 3, 1, 0, []) := by decide
-- V5 rows 4 and 6
theorem test_enq_wraps : seen 4 (exec (.enq 0x41) emptyAtEnd) = some (.status .ok, 3, 0, [0x41, 0x42, 0x43, 0x41]) := by decide
theorem test_enq_full : seen 4 (exec (.enq 0x05) fullWrapped) = some (.status .full, 1, 0, [1, 2, 3, 4]) := by decide
-- V5 rows 5 and 3
theorem test_deq_wraps : seen 4 (exec .deq (buf 4 3 0 [(0, 0x41), (1, 0x42), (2, 0x43), (3, 0x41)])) = some (.byte 0x41, 0, 0, [0x41, 0x42, 0x43, 0x41]) := by decide
theorem test_deq_empty : seen 0 (exec .deq (buf 4 1 1 [])) = some (.status .empty, 1, 1, []) := by decide
-- V6: IDLE in any state
theorem test_idle_unallocated : seen 0 (exec .idle State.reset) = some (.noResponse, 0, 0, []) := by decide

-- V1, non-reference parameter MAX_LOG2 = 4: INIT 16 is OK, INIT 32 is INVALID
theorem test_init_small_instance :
    let s : State := { State.reset with params := { opw := 32, maxLog2 := 4 } }
    seen 1 (exec (.init 16) s) = some (.status .ok, 0, 0, [0]) ∧
    (match exec (.init 32) s with | .next t => t.rsp == .status .invalid && !t.alloc | _ => false) = true := by decide
-- V5 rows 13 and 14: capacity 1
theorem test_capacity_one :
    seen 1 (exec (.enq 0x41) single) = some (.status .full, 0, 0, [0]) ∧
    seen 1 (exec .deq single) = some (.status .empty, 0, 0, [0]) := by decide
-- V7 rows 1 and 5
theorem test_reset_wins :
    (match step { twoQueued with inputs := [{ rst := true, cw := 0xF }] } with
     | .next t => t.rsp == .noResponse && !t.alloc && t.inputs == []
     | _ => false) = true := by decide
theorem test_fault_before_range_check : faults .useWhileUnallocated (step (State.reset.withFetchWord 44 0x63005)) = true := by decide
-- the first instruction after reset, as the host presents it
theorem test_first_instruction :
    decodeTableWord 44 0x8001 = some (.init 8) ∧ decodeTableWord 8 0xF = some .deq ∧
    seen 1 (step (State.reset.withFetchWord 44 0x8001)) = some (.status .ok, 0, 0, [0]) := by decide
-- 30_encoding.md R72, V6: response words
theorem test_response_words :
    (Rsp.byte 0x41).word = 0x209 ∧ (Rsp.byte 0xFF).word = 0x7F9 ∧ (Rsp.len 6).word = 0x31 ∧
    (Rsp.status .full).word = 0x7 ∧ (Rsp.len (2 ^ 30 - 1)).word = 0x1FFFFFFF9 := by decide
-- 30_encoding.md R79, R80: assembler lines, and lines that are none
theorem test_assembler_lines :
    assemble 32 "  WRAT 0x7 , 65 ; seed".toList = some 0x7417 ∧
    assemble 32 "IDLE".toList = some 0 ∧ assemble 32 "CLEAR".toList = some 9 ∧ assemble 32 "LEN -> OK 6".toList = some 0xB := by decide
theorem test_assembler_rejects :
    assemble 32 "ENQ 256".toList = none ∧ assemble 32 "INIT 2147483648".toList = none ∧
    assemble 32 "RDAT".toList = none ∧ assemble 32 "PUSH 1".toList = none := by decide
-- The model's own choices, notes/assumptions/8.md: what stands between quotes is the literal's byte (its ASCII
-- code), and a line without a command is no command
theorem test_assembler_literal :
    assemble 32 "ENQ ';'".toList = some 0x3BD ∧ assemble 32 "WRAT 0, ',' ; seed".toList = some 0x2C7 ∧
    assemble 32 "ENQ '''".toList = some 0x27D := by decide
theorem test_assembler_no_command :
    assemble 32 "".toList = none ∧ assemble 32 "  ; seed".toList = none := by decide

/-! ### Witnesses: for each statement with hypotheses, a state and operands that meet them, clause by clause -/

theorem witness_IdleKeepsEverything :
    (∃ t, exec .idle twoQueued = .next t) ∧ 0xFFFFFFFFFFE % 2 = 0 ∧ (∀ s, ∃ t, exec .idle s = .next t) :=
  ⟨⟨_, rfl⟩, by decide, fun _ => ⟨_, rfl⟩⟩

theorem witness_InitCreatesOrRefuses_accepts :
    (0 < (1 : Int) ∧ (∃ k : Nat, (1 : Int) = 2 ^ k) ∧ (1 : Int) ≤ 2 ^ State.reset.params.maxLog2) ∧
    (0 < (2 ^ 30 : Int) ∧ (∃ k : Nat, (2 ^ 30 : Int) = 2 ^ k) ∧ (2 ^ 30 : Int) ≤ 2 ^ State.reset.params.maxLog2) :=
  ⟨⟨by decide, ⟨0, by decide⟩, by decide⟩, ⟨by decide, ⟨30, by decide⟩, by decide⟩⟩
theorem witness_InitCreatesOrRefuses_refuses :
    (¬ (0 < (0 : Int) ∧ (∃ k : Nat, (0 : Int) = 2 ^ k) ∧ (0 : Int) ≤ 2 ^ State.reset.params.maxLog2)) ∧
    ¬ (0 < (2 ^ 30 + 1 : Int) ∧ (∃ k : Nat, (2 ^ 30 + 1 : Int) = 2 ^ k) ∧ (2 ^ 30 + 1 : Int) ≤ 2 ^ State.reset.params.maxLog2) :=
  ⟨fun h => absurd h.1 (by decide), fun h => absurd h.2.2 (by decide)⟩
theorem witness_init_answers_ok : ∃ t, exec (.init 8) State.reset = .next t ∧ t.rsp = .status .ok := ⟨_, rfl, rfl⟩

theorem witness_low_nibbles : 0x8001 % 16 = 1 ∧ 0x3 % 16 = 3 ∧ 0x5 % 16 = 5 ∧ 0x7417 % 16 = 7 ∧ 0x9 % 16 = 9 ∧
    0xB % 16 = 11 ∧ 0x41D % 16 = 13 ∧ 0xF % 16 = 15 := by decide

/-- The premises of every statement about an allocated buffer, at both ends of the occupancy and of the
capacity; and a state without a buffer. -/
theorem witness_buffers :
    (twoQueued.alloc = true ∧ BufferOk twoQueued ∧ len twoQueued ≠ 0 ∧ len twoQueued ≠ twoQueued.capacity - 1) ∧
    (fullWrapped.alloc = true ∧ BufferOk fullWrapped ∧ len fullWrapped = fullWrapped.capacity - 1) ∧
    (emptyAtEnd.alloc = true ∧ BufferOk emptyAtEnd ∧ len emptyAtEnd = 0) ∧
    (single.alloc = true ∧ BufferOk single ∧ single.capacity = 1) ∧
    State.reset.alloc = false := by decide

theorem witness_DestroyGivesBufferUp : ∃ t, exec .destroy twoQueued = .next t := ⟨_, rfl⟩

theorem witness_positions :
    (0 : Int) ≤ 0 ∧ (0 : Int) < twoQueued.capacity ∧ (0 : Int) ≤ 3 ∧ (3 : Int) < twoQueued.capacity ∧
    ((-1 : Int) < 0 ∨ (twoQueued.capacity : Int) ≤ -1) ∧ ((4 : Int) < 0 ∨ (twoQueued.capacity : Int) ≤ 4) := by decide
theorem witness_WratWritesSlot_next : ∃ t, exec (.wrat 3 0x42) twoQueued = .next t := ⟨_, rfl⟩
theorem witness_ClearEmptiesAndZeroes_next : ∃ t, exec .clear single = .next t := ⟨_, rfl⟩
theorem witness_LenReturnsCursorDistance : fullWrapped.params.Ok ∧ BufferOk fullWrapped := by decide

theorem witness_DecodeEncodeRoundTrip : 1 ≤ 32 ∧ (Instr.wrat (-2147483648) 0xFF).wellFormed 32 = true := by decide
theorem witness_EncodeDecodeZeroesIgnoredFields : 1 ≤ 32 ∧ 0xFFFFFFFFFFF < 2 ^ (32 + 12) := by decide
theorem witness_IgnoredFieldsHaveNoEffect_idle : 0x0 % 2 = 0 ∧ 0xFFFFFFFFFFE % 2 = 0 := by decide
theorem witness_IgnoredFieldsHaveNoEffect_op :
    0x41D % 16 = 0xDEADBEEF41D % 16 ∧
    (0x41D % 16 = 1 ∨ 0x41D % 16 = 5 ∨ 0x41D % 16 = 7 → 0x41D / 2 ^ 12 % 2 ^ 32 = 0xDEADBEEF41D / 2 ^ 12 % 2 ^ 32) ∧
    (0x41D % 16 = 7 ∨ 0x41D % 16 = 13 → 0x41D / 2 ^ 4 % 2 ^ 8 = 0xDEADBEEF41D / 2 ^ 4 % 2 ^ 8) := by decide
theorem witness_DecodedInstrIsWellFormed : 1 ≤ Params.reference.opw := by decide
theorem witness_CommandWordFieldsAtTheirBits :
    0xFFFFFFFF < 2 ^ 32 ∧ 0xFF < 2 ^ 8 ∧ 7 < 2 ^ 3 ∧ 1 < 2 := by decide
theorem witness_ResponseWordFieldsAtTheirBits : (Rsp.byte 0xFF).valPort < 2 ^ 32 := by decide
theorem witness_SignedOperandReading :
    Params.reference.Ok ∧ 0xFFFFFFFF < 2 ^ Params.reference.opw ∧ 2 ^ (Params.reference.opw - 1) ≤ 0x80000000 ∧
    0x80000000 < 2 ^ Params.reference.opw := by decide
theorem witness_PowerOfTwoTestOnBits : 1 ≤ 32 ∧ 0x80000000 < 2 ^ 32 := by decide
theorem witness_InitAcceptsExactlyThePowersOfTwo :
    State.reset.params.maxLog2 + 2 = State.reset.params.opw ∧ signedRange State.reset.params.opw (2 ^ 30) := by decide

theorem witness_StepRunsThePresentedCommand :
    (State.reset.withFetchWord 44 0x8001).inputs = [{ rst := false, cw := 0x8001 }] ∧ State.reset.inputs = [] := by decide
theorem witness_ResetCycleDropsBuffer :
    { twoQueued with inputs := [{ rst := true, cw := 0xF }] }.inputs = { rst := true, cw := 0xF } :: [] := by decide
/-- One input for each clause of the decision order. -/
theorem witness_DecisionOrderOfACycle :
    0x2 % 2 = 0 ∧ 0x8001 % 16 = 1 ∧ (0x63005 % 2 = 1 ∧ 0x63005 % 16 ≠ 1 ∧ State.reset.alloc = false) ∧
    (0xF % 2 = 1 ∧ 0xF % 16 ≠ 1 ∧ emptyAtEnd.alloc = true ∧ BufferOk emptyAtEnd) := by decide
theorem witness_PresentedWordsRunTheirCommands :
    (∃ t rs, runCommands ([0xB].map (decode twoQueued.params.opw)) twoQueued = some (t, rs)) ∧
    runCommands ([0xB].map (decode State.reset.params.opw)) State.reset = none := ⟨⟨_, _, rfl⟩, rfl⟩
theorem witness_NoOperationIsLegalBeforeInit : ∀ w ∈ [0x0, 0xB], w % 16 ≠ 1 := by decide

theorem witness_UseWhileUnallocatedExactlyWhen :
    (State.reset.withFetchWord 44 0xB).inputs = { rst := false, cw := 0xB } :: [] ∧ cwValid 0xB = 1 ∧ cwOp 0xB ≠ 0 := by decide
theorem witness_FailureStatusesExactlyWhen : ∃ t, exec (.enq 0x05) fullWrapped = .next t := ⟨_, rfl⟩
theorem witness_FailureChangesNothing :
    ∃ t, exec .deq emptyAtEnd = .next t ∧ t.rsp = .status .empty ∧ Status.empty ≠ .ok := ⟨_, rfl, rfl, by decide⟩
theorem witness_StepCompletesOrIsThatFault :
    (State.reset.alloc = true → BufferOk State.reset) ∧ (twoQueued.alloc = true → BufferOk twoQueued) := by decide
theorem witness_EveryInstructionCompletesWhileAllocated :
    (twoQueued.alloc = true ∧ BufferOk twoQueued ∨ Instr.deq = .idle ∨ ∃ c, Instr.deq = .init c) ∧
    (State.reset.alloc = true ∧ BufferOk State.reset ∨ Instr.init 3 = .idle ∨ ∃ c, Instr.init 3 = .init c) :=
  ⟨.inl (by decide), .inr (.inr ⟨3, rfl⟩)⟩

theorem witness_StepKeepsInvariant :
    StateInv (twoQueued.withFetchWord 44 0xF) ∧ ∃ t, step (twoQueued.withFetchWord 44 0xF) = .next t :=
  ⟨by decide, ⟨_, rfl⟩⟩
theorem witness_LengthFormsAgree_width : fullWrapped.capacity ≤ 2 ^ 2 := by decide
theorem witness_CursorIncrementForms : 3 < 2 ^ 2 ∧ 0 < 2 ^ 0 := by decide
theorem witness_OnlyTheseOperationsWrite : ∃ t, exec (.enq 0x43) twoQueued = .next t := ⟨_, rfl⟩
theorem witness_UnspecifiedStateIsNeverObserved :
    SameView State.reset { State.reset with capacity := 7, rdPtr := 5, wrPtr := 6, storage := Storage.unspecified 9 } := by decide

theorem witness_MemoryPrimitivesOnTheirDomain_inside : twoQueued.alloc = true ∧ 3 < twoQueued.capacity := by decide
theorem witness_MemoryPrimitivesOnTheirDomain_outside :
    twoQueued.capacity ≤ 4 ∧ (releaseBuffer twoQueued).alloc = false ∧ 3 < (releaseBuffer twoQueued).capacity := by decide
theorem witness_ZeroFillReadsZero :
    ∃ t, exec .clear twoQueued = .next t ∧ t.rsp = .status .ok ∧ (3 : Int) < t.capacity := ⟨_, rfl, rfl, by decide⟩
theorem witness_DeqLeavesTheByteInItsSlot : ∃ t, exec .deq twoQueued = .next t ∧ t.rsp = .byte 0x41 := ⟨_, rfl, rfl⟩

theorem witness_OccupancyAccounting_step :
    (∃ t, exec (.enq 1) twoQueued = .next t ∧ t.rsp = .status .ok) ∧ (∃ t, exec .deq twoQueued = .next t ∧ t.rsp = .byte 0x41) :=
  ⟨⟨_, rfl, rfl⟩, ⟨_, rfl, rfl⟩⟩
theorem witness_OccupancyAccounting_run :
    (∀ i ∈ [Instr.enq 1], i ≠ .clear ∧ i ≠ .destroy ∧ ∀ c, i ≠ .init c) ∧
    ∃ t rs, runCommands [.enq 1] twoQueued = some (t, rs) := ⟨by simp, ⟨_, _, rfl⟩⟩
theorem witness_FifoOrderOverRuns : ∀ i ∈ [Instr.enq 1, .deq, .len, .rdat 0, .idle], fifoOrRead i = true := by decide
theorem witness_UsableCapacityIsCapacityMinusOne_after_full :
    len fullWrapped = fullWrapped.capacity - 1 ∧ ∃ t, exec .deq fullWrapped = .next t ∧ t.rsp = .byte 0x02 :=
  ⟨by decide, ⟨_, rfl, rfl⟩⟩
theorem witness_InitMakesEveryCommandLegal :
    State.reset.params.Ok ∧ ∃ t, exec (.init 1) State.reset = .next t ∧ t.rsp = .status .ok := ⟨by decide, ⟨_, rfl, rfl⟩⟩
theorem witness_ReturnedValuesFit : StateInv fullWrapped ∧ (∃ t, exec .len fullWrapped = .next t ∧ t.rsp = .len 3) ∧ 8 ≤ fullWrapped.params.opw :=
  ⟨by decide, ⟨_, rfl, rfl⟩, by decide⟩

end Sys2Proof.Tests
end

section
/-!
SUPPORT. When a meaning, `exec` and a step complete: the converse of `Sys2Proof/Laws/Meanings.lean`, which
says what they answer once they complete.
-/
namespace Sys2Proof.Machine

/-! ### Each meaning -/

theorem execInit_accepts {s : State} {c : Int} (h : capacityOk s.params c = true) :
    execInit c s = .next { createBuffer c.toNat s with rsp := .status .ok } :=
  if_pos h

theorem execInit_refuses {s : State} {c : Int} (h : capacityOk s.params c = false) :
    execInit c s = .next { s with rsp := .status .invalid } :=
  if_neg (Bool.eq_false_iff.1 h)

theorem execInit_completes (c : Int) (s : State) : ∃ t, execInit c s = .next t := by
  cases h : capacityOk s.params c
  · exact ⟨_, execInit_refuses h⟩
  · exact ⟨_, execInit_accepts h⟩

/-- INIT answers `OK` exactly when its test passes (40_init_destroy.md R100). -/
theorem execInit_ok_iff {s : State} {c : Int} :
    (∃ t, execInit c s = .next t ∧ t.rsp = .status .ok) ↔ capacityOk s.params c = true := by
  constructor
  · rintro ⟨t, ht, hok⟩
    obtain ⟨hc, -⟩ | ⟨-, rfl⟩ := execInit_next ht
    · exact hc
    · cases hok
  · exact fun hc => ⟨_, execInit_accepts hc, rfl⟩

/-- RDAT checks its range before the access, so it never meets a slot that does not exist. -/
theorem execRdat_completes {s : State} (ha : s.alloc = true) (p : Int) : ∃ t, execRdat p s = .next t := by
  unfold execRdat
  rw [requireBuffer_alloc ha]
  by_cases hp : p < 0 ∨ (s.capacity : Int) ≤ p
  · rw [absoluteSlot_outside hp]
    exact ⟨_, rfl⟩
  · rw [absoluteSlot_inside (by omega) (by omega)]
    exact ⟨_, loadThen_inside ⟨ha, by omega⟩⟩

/-- WRAT checks its range before the access, so it never meets a slot that does not exist. -/
theorem execWrat_completes {s : State} (ha : s.alloc = true) (p : Int) (v : Byte) :
    ∃ t, execWrat p v s = .next t := by
  unfold execWrat
  rw [requireBuffer_alloc ha]
  by_cases hp : p < 0 ∨ (s.capacity : Int) ≤ p
  · rw [absoluteSlot_outside hp]
    exact ⟨_, rfl⟩
  · rw [absoluteSlot_inside (by omega) (by omega)]
    exact ⟨_, storeThen_inside ⟨ha, by omega⟩⟩

/-- ENQ writes the slot at `wr_ptr`, which exists when that cursor is in range. -/
theorem execEnq_completes {s : State} (ha : s.alloc = true) (hw : s.wrPtr < s.capacity) (v : Byte) :
    ∃ t, execEnq v s = .next t := by
  unfold execEnq
  rw [requireBuffer_alloc ha]
  cases isFull s
  · exact ⟨_, storeThen_inside ⟨ha, hw⟩⟩
  · exact ⟨_, rfl⟩

/-- DEQ reads the slot at `rd_ptr`, which exists when that cursor is in range. -/
theorem execDeq_completes {s : State} (ha : s.alloc = true) (hr : s.rdPtr < s.capacity) :
    ∃ t, execDeq s = .next t := by
  unfold execDeq
  rw [requireBuffer_alloc ha]
  cases isEmpty s
  · exact ⟨_, loadThen_inside ⟨ha, hr⟩⟩
  · exact ⟨_, rfl⟩

/-! ### The dispatch -/

/-- With a buffer whose cursors are in range, every instruction completes. -/
theorem exec_completes {s : State} (ha : s.alloc = true) (hr : s.rdPtr < s.capacity)
    (hw : s.wrPtr < s.capacity) (i : Instr) : ∃ t, exec i s = .next t := by
  cases i with
  | idle => exact ⟨_, rfl⟩
  | init c => exact execInit_completes c s
  | destroy => exact ⟨_, requireBuffer_alloc ha⟩
  | rdat p => exact execRdat_completes ha p
  | wrat p v => exact execWrat_completes ha p v
  | clear => exact ⟨_, requireBuffer_alloc ha⟩
  | len => exact ⟨_, requireBuffer_alloc ha⟩
  | enq v => exact execEnq_completes ha hw v
  | deq => exact execDeq_completes ha hr

/-- Without a buffer, every instruction but IDLE and INIT raises the fault of 60_exceptions.md R152. -/
theorem exec_unalloc {s : State} (ha : s.alloc = false) {i : Instr} (hidle : i ≠ .idle)
    (hinit : ∀ c, i ≠ .init c) : exec i s = .fault .useWhileUnallocated := by
  cases i with
  | idle => exact absurd rfl hidle
  | init c => exact absurd rfl (hinit c)
  | destroy | rdat _ | wrat _ _ | clear | len | enq _ | deq => exact requireBuffer_unalloc ha

/-- On a state that meets R26 while allocated, an instruction completes or raises that fault. -/
theorem exec_completes_or_faults {s : State} (hok : s.alloc = true → BufferOk s) (i : Instr) :
    (∃ t, exec i s = .next t) ∨ exec i s = .fault .useWhileUnallocated := by
  cases ha : s.alloc
  · by_cases hidle : i = .idle
    · exact .inl (hidle ▸ ⟨_, rfl⟩)
    by_cases hinit : ∃ c, i = .init c
    · obtain ⟨c, rfl⟩ := hinit
      exact .inl (execInit_completes c s)
    · exact .inr (exec_unalloc ha hidle (not_exists.1 hinit))
  · obtain ⟨-, hr, hw, -⟩ := hok ha
    exact .inl (exec_completes ha hr hw i)

/-! ### The step: one equation for each kind of cycle -/

theorem step_of_no_input {s : State} (h : s.inputs = []) : step s = exec .idle s := by
  simp [step, fetchCycle, h]

theorem step_of_reset {s : State} {x : PortIn} {rest : List PortIn} (h : s.inputs = x :: rest)
    (hx : x.rst = true) : step s = .next (takeReset { s with inputs := rest }) := by
  simp [step, fetchCycle, h, hx]

theorem step_of_command {s : State} {x : PortIn} {rest : List PortIn} (h : s.inputs = x :: rest)
    (hx : x.rst = false) : step s = exec (decode s.params.opw x.cw) { s with inputs := rest } := by
  simp [step, fetchCycle, h, hx]

end Sys2Proof.Machine
end

section
/-! PROOFS. The statements of 00_scope.md. -/
namespace Sys2Proof.Machine

/-- With `MAX_LOG2 = OPW - 2`, the powers of two among the `OPW`-bit operands are those the physical
storage holds: the next one, `2^(OPW-1)`, is already out of the signed range (90_conflicts.md C2). -/
theorem two_pow_le_maxCapacity_of_signedRange {p : Params} {k : Nat} (hp : p.maxLog2 + 2 = p.opw)
    (hr : signedRange p.opw (2 ^ k)) : (2 : Int) ^ k ≤ 2 ^ p.maxLog2 := by
  have hlt : (2 : Int) ^ k < 2 ^ (p.maxLog2 + 1) := by
    rw [show p.maxLog2 + 1 = p.opw - 1 by omega]
    exact hr.2
  have hk : k < p.maxLog2 + 1 := (pow_lt_pow_iff_right₀ one_lt_two).1 hlt
  exact pow_le_pow_right₀ one_le_two (Nat.le_of_lt_succ hk)

/-- Settles O20: INIT's test asks for a power of two no larger than the storage, and the signed range
already implies the bound. -/
theorem initAcceptsExactlyThePowersOfTwo : Obligations.InitAcceptsExactlyThePowersOfTwo := by
  intro s c hp hr
  rw [show exec (.init c) s = execInit c s from rfl, execInit_ok_iff, capacityOk_iff]
  constructor
  · rintro ⟨-, hpow, -⟩
    exact hpow
  · rintro ⟨k, rfl⟩
    exact ⟨by positivity, ⟨k, rfl⟩, two_pow_le_maxCapacity_of_signedRange hp hr⟩

/-- Settles O30: a reset cycle completes, and any other cycle is `exec` on a state with the same buffer. -/
theorem stepCompletesOrIsThatFault : Obligations.StepCompletesOrIsThatFault := by
  intro s hok
  rcases hi : s.inputs with _ | ⟨x, rest⟩
  · rw [step_of_no_input hi]
    exact exec_completes_or_faults hok .idle
  · cases hx : x.rst
    · rw [step_of_command hi hx]
      exact exec_completes_or_faults (s := { s with inputs := rest }) hok _
    · exact .inl ⟨_, step_of_reset hi hx⟩

/-- Settles O22: the two clauses are the step's equations for a command and for no input. -/
theorem stepRunsThePresentedCommand : Obligations.StepRunsThePresentedCommand :=
  ⟨fun _ _ _ h => step_of_command h rfl, fun _ h => step_of_no_input h⟩

end Sys2Proof.Machine
end

section
/-!
SUPPORT. The effect of an instruction on the state: every way `exec` can answer a next state, and what each
named update keeps of 10_state.md R26.
-/
namespace Sys2Proof.Machine

/-! ### What an instruction can write -/

/-- `Effect s i t`: the instruction `i`, when it completes from `s`, may leave `t`. One constructor for each
way the table of 10_state.md R33 gives, with its guards, and `answer` for the completions that write no item
of state (what they answer stands in the `_next` lemma of each meaning). -/
inductive Effect (s : State) : Instr → State → Prop where
  | answer {i : Instr} (r : Rsp) : Effect s i { s with rsp := r }
  | init {c : Int} : capacityOk s.params c = true →
      Effect s (.init c) { createBuffer c.toNat s with rsp := .status .ok }
  | destroy : s.alloc = true → Effect s .destroy { releaseBuffer s with rsp := .noResponse }
  | wrat {p : Int} {v : Byte} : s.alloc = true → 0 ≤ p → p < s.capacity →
      Effect s (.wrat p v) { s with storage := s.storage.write p.toNat v, rsp := .status .ok }
  | clear : s.alloc = true → Effect s .clear { clearBuffer s with rsp := .status .ok }
  | enq {v : Byte} : s.alloc = true → isFull s = false → s.wrPtr < s.capacity →
      Effect s (.enq v) { advanceWrite { s with storage := s.storage.write s.wrPtr v } with
        rsp := .status .ok }
  | deq : s.alloc = true → isEmpty s = false → s.rdPtr < s.capacity →
      Effect s .deq { advanceRead s with rsp := .byte (s.storage.read s.rdPtr) }

/-- Every completion of every instruction is one of these effects. -/
theorem exec_effect {i : Instr} {s t : State} (h : exec i s = .next t) : Effect s i t := by
  cases i with
  | idle => exact execIdle_next h ▸ .answer _
  | init c =>
    obtain ⟨hc, rfl⟩ | ⟨-, rfl⟩ := execInit_next h
    · exact .init hc
    · exact .answer _
  | destroy =>
    obtain ⟨ha, rfl⟩ := execDestroy_next h
    exact .destroy ha
  | rdat p => obtain ⟨-, ⟨-, -, rfl⟩ | ⟨-, rfl⟩⟩ := execRdat_next h <;> exact .answer _
  | wrat p v =>
    obtain ⟨ha, ⟨h0, hp, rfl⟩ | ⟨-, rfl⟩⟩ := execWrat_next h
    · exact .wrat ha h0 hp
    · exact .answer _
  | clear =>
    obtain ⟨ha, rfl⟩ := execClear_next h
    exact .clear ha
  | len =>
    obtain ⟨-, rfl⟩ := execLen_next h
    exact .answer _
  | enq v =>
    obtain ⟨ha, ⟨-, rfl⟩ | ⟨hfull, hw, rfl⟩⟩ := execEnq_next h
    · exact .answer _
    · exact .enq ha hfull hw
  | deq =>
    obtain ⟨ha, ⟨-, rfl⟩ | ⟨hempty, hr, rfl⟩⟩ := execDeq_next h
    · exact .answer _
    · exact .deq ha hempty hr

/-- After a write, a slot reads as before or is the slot written and reads the new byte. -/
theorem read_write_cases (m : Storage) (a b : Nat) (v : Byte) :
    (m.write a v).read b = m.read b ∨ (b = a ∧ (m.write a v).read b = v) := by
  by_cases h : b = a
  · exact .inr ⟨h, h ▸ read_write_same m b v⟩
  · exact .inl (read_write_other m v h)

/-! ### The buffer of R26 -/

theorem bufferOk_createBuffer {s : State} {c : Int} (h : capacityOk s.params c = true) :
    BufferOk (createBuffer c.toNat s) := by
  obtain ⟨k, hk, hc, -⟩ := capacityOk_toNat h
  have hpos : 0 < c.toNat := hc ▸ Nat.two_pow_pos k
  exact ⟨⟨k, hk, hc⟩, hpos, hpos, rfl, fun _ hm => absurd hm List.not_mem_nil⟩

theorem bufferOk_clearBuffer {s : State} (h : BufferOk s) : BufferOk (clearBuffer s) := by
  obtain ⟨hpow, hr, -⟩ := h
  have hpos : 0 < s.capacity := Nat.zero_lt_of_lt hr
  exact ⟨hpow, hpos, hpos, rfl, fun _ hm => absurd hm List.not_mem_nil⟩

theorem bufferOk_write {s : State} {a : Nat} (v : Byte) (h : BufferOk s) (ha : a < s.capacity) :
    BufferOk { s with storage := s.storage.write a v } := by
  obtain ⟨hpow, hr, hw, hfill, hcells⟩ := h
  exact ⟨hpow, hr, hw, hfill, write_below ha hcells⟩

theorem bufferOk_advanceWrite {s : State} (h : BufferOk s) : BufferOk (advanceWrite s) := by
  obtain ⟨hpow, hr, hw, hstorage⟩ := h
  exact ⟨hpow, hr, nextCursor_lt (Nat.zero_lt_of_lt hw), hstorage⟩

theorem bufferOk_advanceRead {s : State} (h : BufferOk s) : BufferOk (advanceRead s) := by
  obtain ⟨hpow, hr, hrest⟩ := h
  exact ⟨hpow, nextCursor_lt (Nat.zero_lt_of_lt hr), hrest⟩

/-- A buffer that meets R26 has its capacity and cursors within the physical registers (R21, R23, R24). -/
theorem registersFit_of_bufferOk {s : State} (h : BufferOk s) : RegistersFit s := by
  obtain ⟨⟨k, hk, hc⟩, hr, hw, -⟩ := h
  have hcap : s.capacity < 2 ^ s.params.capacityWidth :=
    hc ▸ Nat.pow_lt_pow_right one_lt_two (Nat.lt_succ_of_le hk)
  have hcursor : s.capacity ≤ 2 ^ s.params.cursorWidth :=
    hc ▸ Nat.pow_le_pow_right two_pos (hk.trans (le_max_left _ _))
  exact ⟨hcap, hr.trans_le hcursor, hw.trans_le hcursor⟩

/-- While allocated, the register widths follow from R26, so the invariant asks for the rest only. -/
theorem stateInv_of_bufferOk {s : State} (hp : s.params.Ok) (hwf : s.storage.wf) (h : BufferOk s) :
    StateInv s :=
  ⟨hp, registersFit_of_bufferOk h, hwf, fun _ => h⟩

/-! ### The invariant -/

theorem exec_keeps_stateInv {i : Instr} {s t : State} (h : exec i s = .next t) (hs : StateInv s) :
    StateInv t := by
  obtain ⟨hp, hfit, hwf, hbuf⟩ := hs
  cases exec_effect h with
  | answer r => exact ⟨hp, hfit, hwf, hbuf⟩
  | init hc => exact stateInv_of_bufferOk hp zeroFilled_wf (bufferOk_createBuffer hc)
  | destroy => exact ⟨hp, hfit, unspecified_wf _, fun ha => nomatch ha⟩
  | wrat ha h0 hlt =>
    exact stateInv_of_bufferOk hp (write_wf _ _ hwf) (bufferOk_write _ (hbuf ha) (by omega))
  | clear ha => exact stateInv_of_bufferOk hp zeroFilled_wf (bufferOk_clearBuffer (s := s) (hbuf ha))
  | enq ha _ hw =>
    exact stateInv_of_bufferOk hp (write_wf _ _ hwf) (bufferOk_advanceWrite (bufferOk_write _ (hbuf ha) hw))
  | deq ha _ _ => exact stateInv_of_bufferOk hp hwf (bufferOk_advanceRead (hbuf ha))

/-- A reset cycle draws values that fit the registers, and leaves no buffer (70_reset_and_hazards.md R170). -/
theorem takeReset_stateInv {s : State} (hp : s.params.Ok) : StateInv (takeReset s) :=
  ⟨hp, ⟨Nat.mod_lt _ (Nat.two_pow_pos _), Nat.mod_lt _ (Nat.two_pow_pos _), Nat.mod_lt _ (Nat.two_pow_pos _)⟩,
    unspecified_wf _, fun ha => nomatch ha⟩

theorem step_keeps_stateInv {s t : State} (h : step s = .next t) (hs : StateInv s) : StateInv t := by
  obtain ⟨-, h⟩ | ⟨_, rest, -, -, rfl⟩ | ⟨x, rest, -, -, h⟩ := step_next h
  · exact exec_keeps_stateInv (i := .idle) h hs
  · exact takeReset_stateInv hs.1
  · exact exec_keeps_stateInv (s := { s with inputs := rest }) h hs

end Sys2Proof.Machine
end

section
/-!
SUPPORT. What the host cannot tell apart: states with the same view give outcomes with the same response
and the same view again, operation by operation.
-/
namespace Sys2Proof.Machine

/-- Two outcomes the host cannot tell apart, now or later: the same response and states with the same view,
or the same fault. -/
inductive SameOutcome : Result → Result → Prop where
  | next {u v : State} : u.rsp = v.rsp → SameView u v → SameOutcome (.next u) (.next v)
  | fault (f : Fault) : SameOutcome (.fault f) (.fault f)

theorem sameView_params {s t : State} (h : SameView s t) : s.params = t.params := h.1

theorem sameView_inputs {s t : State} (h : SameView s t) : s.inputs = t.inputs := h.2.1

/-- With a buffer, the view is all of it. -/
theorem sameView_buffer {s t : State} (h : SameView s t) (ha : s.alloc = true) :
    s.capacity = t.capacity ∧ s.rdPtr = t.rdPtr ∧ s.wrPtr = t.wrPtr ∧ s.storage = t.storage :=
  h.2.2.2 ha

/-! ### The shared operations -/

theorem sameOutcome_respond {s t : State} (r : Rsp) (h : SameView s t) :
    SameOutcome (respond r s) (respond r t) :=
  .next rfl h

theorem sameOutcome_requireBuffer {s t : State} {k k' : Result} (h : SameView s t)
    (hk : s.alloc = true → SameOutcome k k') : SameOutcome (requireBuffer s k) (requireBuffer t k') := by
  obtain ⟨-, -, halloc, -⟩ := h
  cases ha : s.alloc
  · rw [requireBuffer_unalloc ha, requireBuffer_unalloc (halloc ▸ ha)]
    exact .fault _
  · rw [requireBuffer_alloc ha, requireBuffer_alloc (halloc ▸ ha)]
    exact hk ha

/-- States with the same view have the same slots. -/
theorem hasSlot_congr {s t : State} (h : SameView s t) (a : Nat) : HasSlot s a ↔ HasSlot t a := by
  obtain ⟨-, -, halloc, hbuf⟩ := h
  unfold HasSlot
  rw [← halloc]
  exact and_congr_right fun ha => by rw [(hbuf ha).1]

theorem sameOutcome_loadThen {s t : State} {k k' : Byte → Result} (h : SameView s t) (a : Nat)
    (hk : ∀ b, SameOutcome (k b) (k' b)) : SameOutcome (loadThen s a k) (loadThen t a k') := by
  have hslot := hasSlot_congr h a
  by_cases hs : HasSlot s a
  · obtain ⟨-, -, -, hstorage⟩ := sameView_buffer h hs.1
    rw [loadThen_inside hs, loadThen_inside (hslot.1 hs), hstorage]
    exact hk _
  · rw [loadThen_outside hs, loadThen_outside (mt hslot.2 hs)]
    exact .fault _

theorem sameView_write {s t : State} (h : SameView s t) (a : Nat) (v : Byte) :
    SameView { s with storage := s.storage.write a v } { t with storage := t.storage.write a v } := by
  obtain ⟨hparams, hinputs, halloc, hbuf⟩ := h
  refine ⟨hparams, hinputs, halloc, fun ha => ?_⟩
  obtain ⟨hc, hr, hw, hstorage⟩ := hbuf ha
  exact ⟨hc, hr, hw, by rw [hstorage]⟩

theorem sameOutcome_storeThen {s t : State} {k : State → Result} (h : SameView s t) (a : Nat) (v : Byte)
    (hk : ∀ {u w}, SameView u w → SameOutcome (k u) (k w)) :
    SameOutcome (storeThen s a v k) (storeThen t a v k) := by
  have hslot := hasSlot_congr h a
  by_cases hs : HasSlot s a
  · rw [storeThen_inside hs, storeThen_inside (hslot.1 hs)]
    exact hk (sameView_write h a v)
  · rw [storeThen_outside hs, storeThen_outside (mt hslot.2 hs)]
    exact .fault _

/-! ### The named updates -/

theorem sameView_createBuffer {s t : State} (h : SameView s t) (n : Nat) :
    SameView (createBuffer n s) (createBuffer n t) := by
  obtain ⟨hparams, hinputs, -, -⟩ := h
  exact ⟨hparams, hinputs, rfl, fun _ => ⟨rfl, rfl, rfl, rfl⟩⟩

theorem sameView_clearBuffer {s t : State} (h : SameView s t) :
    SameView (clearBuffer s) (clearBuffer t) := by
  obtain ⟨hparams, hinputs, halloc, hbuf⟩ := h
  exact ⟨hparams, hinputs, halloc, fun ha => ⟨(hbuf ha).1, rfl, rfl, rfl⟩⟩

/-- Without a buffer, capacity, cursors and storage are out of view, whatever was drawn for them. -/
theorem sameView_releaseBuffer {s t : State} (h : SameView s t) :
    SameView (releaseBuffer s) (releaseBuffer t) := by
  obtain ⟨hparams, hinputs, -, -⟩ := h
  exact ⟨hparams, hinputs, rfl, fun ha => nomatch ha⟩

/-- As for DESTROY: the values a reset cycle draws are out of view. -/
theorem sameView_takeReset {s t : State} (h : SameView s t) : SameView (takeReset s) (takeReset t) := by
  obtain ⟨hparams, hinputs, -, -⟩ := h
  exact ⟨hparams, hinputs, rfl, fun ha => nomatch ha⟩

theorem sameView_advanceWrite {s t : State} (h : SameView s t) :
    SameView (advanceWrite s) (advanceWrite t) := by
  obtain ⟨hparams, hinputs, halloc, hbuf⟩ := h
  refine ⟨hparams, hinputs, halloc, fun ha => ?_⟩
  obtain ⟨hc, hr, hw, hstorage⟩ := hbuf ha
  exact ⟨hc, hr, by simp [hc, hw], hstorage⟩

theorem sameView_advanceRead {s t : State} (h : SameView s t) :
    SameView (advanceRead s) (advanceRead t) := by
  obtain ⟨hparams, hinputs, halloc, hbuf⟩ := h
  refine ⟨hparams, hinputs, halloc, fun ha => ?_⟩
  obtain ⟨hc, hr, hw, hstorage⟩ := hbuf ha
  exact ⟨hc, by simp [hc, hr], hw, hstorage⟩

theorem sameView_dropInputs {s t : State} (h : SameView s t) (rest : List PortIn) :
    SameView { s with inputs := rest } { t with inputs := rest } := by
  obtain ⟨hparams, -, halloc, hbuf⟩ := h
  exact ⟨hparams, rfl, halloc, hbuf⟩

/-! ### The instructions and the step -/

theorem sameOutcome_execInit {s t : State} (h : SameView s t) (c : Int) :
    SameOutcome (execInit c s) (execInit c t) := by
  unfold execInit
  rw [← sameView_params h]
  split
  · exact sameOutcome_respond _ (sameView_createBuffer h _)
  · exact sameOutcome_respond _ h

theorem absoluteSlot_congr {s t : State} (h : s.capacity = t.capacity) (p : Int) :
    absoluteSlot s p = absoluteSlot t p := by
  simp only [absoluteSlot, h]

theorem sameOutcome_execRdat {s t : State} (h : SameView s t) (p : Int) :
    SameOutcome (execRdat p s) (execRdat p t) := by
  refine sameOutcome_requireBuffer h fun ha => ?_
  rw [← absoluteSlot_congr (sameView_buffer h ha).1]
  cases absoluteSlot s p with
  | none => exact sameOutcome_respond _ h
  | some a => exact sameOutcome_loadThen h a fun b => sameOutcome_respond _ h

theorem sameOutcome_execWrat {s t : State} (h : SameView s t) (p : Int) (v : Byte) :
    SameOutcome (execWrat p v s) (execWrat p v t) := by
  refine sameOutcome_requireBuffer h fun ha => ?_
  rw [← absoluteSlot_congr (sameView_buffer h ha).1]
  cases absoluteSlot s p with
  | none => exact sameOutcome_respond _ h
  | some a => exact sameOutcome_storeThen h a v (sameOutcome_respond _)

theorem sameOutcome_execEnq {s t : State} (h : SameView s t) (v : Byte) :
    SameOutcome (execEnq v s) (execEnq v t) := by
  refine sameOutcome_requireBuffer h fun ha => ?_
  obtain ⟨hc, hr, hw, -⟩ := sameView_buffer h ha
  rw [isFull_congr hc hr hw, writeSlot, writeSlot, hw]
  split
  · exact sameOutcome_respond _ h
  · exact sameOutcome_storeThen h _ v fun h' => sameOutcome_respond _ (sameView_advanceWrite h')

theorem sameOutcome_execDeq {s t : State} (h : SameView s t) : SameOutcome (execDeq s) (execDeq t) := by
  refine sameOutcome_requireBuffer h fun ha => ?_
  obtain ⟨hc, hr, hw, -⟩ := sameView_buffer h ha
  rw [isEmpty_congr hc hr hw, readSlot, readSlot, hr]
  split
  · exact sameOutcome_respond _ h
  · exact sameOutcome_loadThen h _ fun b => sameOutcome_respond _ (sameView_advanceRead h)

theorem sameOutcome_execLen {s t : State} (h : SameView s t) : SameOutcome (execLen s) (execLen t) := by
  refine sameOutcome_requireBuffer h fun ha => ?_
  obtain ⟨hc, hr, hw, -⟩ := sameView_buffer h ha
  rw [len_congr hc hr hw]
  exact sameOutcome_respond _ h

theorem sameOutcome_exec {s t : State} (h : SameView s t) (i : Instr) :
    SameOutcome (exec i s) (exec i t) := by
  cases i with
  | idle => exact sameOutcome_respond _ h
  | init c => exact sameOutcome_execInit h c
  | destroy => exact sameOutcome_requireBuffer h fun _ => sameOutcome_respond _ (sameView_releaseBuffer h)
  | rdat p => exact sameOutcome_execRdat h p
  | wrat p v => exact sameOutcome_execWrat h p v
  | clear => exact sameOutcome_requireBuffer h fun _ => sameOutcome_respond _ (sameView_clearBuffer h)
  | len => exact sameOutcome_execLen h
  | enq v => exact sameOutcome_execEnq h v
  | deq => exact sameOutcome_execDeq h

theorem sameOutcome_step {s t : State} (h : SameView s t) : SameOutcome (step s) (step t) := by
  have hopw : s.params.opw = t.params.opw := congrArg Params.opw (sameView_params h)
  have hinputs : t.inputs = s.inputs := (sameView_inputs h).symm
  rcases hs : s.inputs with _ | ⟨x, rest⟩
  · rw [step_of_no_input hs, step_of_no_input (hinputs.trans hs)]
    exact sameOutcome_exec h .idle
  have hrest := sameView_dropInputs h rest
  cases hx : x.rst
  · rw [step_of_command hs hx, step_of_command (hinputs.trans hs) hx, hopw]
    exact sameOutcome_exec hrest _
  · rw [step_of_reset hs hx, step_of_reset (hinputs.trans hs) hx]
    exact .next rfl (sameView_takeReset hrest)

/-! ### What the host observes -/

theorem observe_succ_next {s u : State} (n : Nat) (h : step s = .next u) :
    observe (n + 1) s = some u.rsp :: observe n u := by
  simp only [observe, h]

theorem observe_succ_fault {s : State} {f : Fault} (n : Nat) (h : step s = .fault f) :
    observe (n + 1) s = [none] := by
  simp only [observe, h]

end Sys2Proof.Machine
end

section
/-! SUPPORT. The length in mask form, and empty and full by the cursors (10_state.md R27, R28). -/
namespace Sys2Proof.Machine

/-- The difference taken in `width` bits is the integer difference modulo `2^width`. -/
theorem toNat_ofNat_sub_ofNat (width a b : Nat) :
    ((BitVec.ofNat width a - BitVec.ofNat width b).toNat : Int) = ((a : Int) - b) % 2 ^ width := by
  have hb : b % 2 ^ width ≤ 2 ^ width := (Nat.mod_lt b (Nat.two_pow_pos width)).le
  rw [BitVec.toNat_sub, BitVec.toNat_ofNat, BitVec.toNat_ofNat]
  push_cast [Nat.cast_sub hb]
  rw [sub_add_eq_add_sub, add_sub_assoc, Int.add_emod_left, ← Int.sub_emod]

/-- The mask of a power of two that divides `2^width` keeps the length: the wrap of the difference in
`width` bits is a multiple of the capacity. No bound on the cursors is needed. -/
theorem lenMasked_eq_len {s : State} {k width : Nat} (hc : s.capacity = 2 ^ k) (hk : k ≤ width) :
    lenMasked width s = len s := by
  have hdvd : (2 : Int) ^ k ∣ 2 ^ width := pow_dvd_pow 2 hk
  rw [lenMasked, hc, Nat.and_two_pow_sub_one_eq_mod, len, hc]
  zify
  rw [toNat_ofNat_sub_ofNat, Int.emod_emod_of_dvd _ hdvd, Int.toNat_of_nonneg]
  exact Int.emod_nonneg _ (by positivity)

theorem len_eq_emod {s : State} (hc : 0 < s.capacity) :
    (len s : Int) = ((s.wrPtr : Int) - s.rdPtr) % s.capacity :=
  Int.toNat_of_nonneg (Int.emod_nonneg _ (by omega))

/-- Equal cursors are length 0. -/
theorem len_eq_zero_iff {s : State} (hr : s.rdPtr < s.capacity) (hw : s.wrPtr < s.capacity) :
    len s = 0 ↔ s.wrPtr = s.rdPtr := by
  rcases len_cases hr hw with ⟨h, e⟩ | ⟨h, e⟩ <;> omega

/-- `wr_ptr` just before `rd_ptr` is length `capacity - 1`. -/
theorem len_eq_capacity_sub_one_iff {s : State} (hr : s.rdPtr < s.capacity) (hw : s.wrPtr < s.capacity) :
    len s = s.capacity - 1 ↔ nextCursor s.capacity s.wrPtr = s.rdPtr := by
  rcases len_cases hr hw with ⟨h, e⟩ | ⟨h, e⟩ <;>
    rcases nextCursor_cases hw with ⟨h', e'⟩ | ⟨h', e'⟩ <;> omega

end Sys2Proof.Machine
end

section
/-! PROOFS. The statements of 10_state.md. -/
namespace Sys2Proof.Machine

/-- Settles O34: the invariant is kept by each effect of an instruction and by a reset cycle, and item 4 of
R26 follows from the range of the length. -/
theorem stepKeepsInvariant : Obligations.StepKeepsInvariant := by
  intro s t hs h
  have ht : StateInv t := step_keeps_stateInv h hs
  refine ⟨ht, fun ha => ?_⟩
  obtain ⟨-, -, -, hbuf⟩ := ht
  obtain ⟨-, hr, -⟩ := hbuf ha
  exact Nat.le_sub_one_of_lt (len_lt (Nat.zero_lt_of_lt hr))

/-- Settles O39, by induction on the cycles: a step from two states with the same view gives the same
response and the same view again, or the same fault. -/
theorem unspecifiedStateIsNeverObserved : Obligations.UnspecifiedStateIsNeverObserved := by
  intro n
  induction n with
  | zero => exact fun _ _ _ => rfl
  | succ n ih =>
    intro s t h
    have hstep := sameOutcome_step h
    generalize hs : step s = rs at hstep
    generalize ht : step t = rt at hstep
    cases hstep with
    | next hrsp hview => rw [observe_succ_next n hs, observe_succ_next n ht, hrsp, ih _ _ hview]
    | fault f => rw [observe_succ_fault n hs, observe_succ_fault n ht]

/-- Settles O35: the length by the order of the cursors, and the mask form at a power of two. -/
theorem lengthFormsAgree : Obligations.LengthFormsAgree := by
  rintro s ⟨⟨k, -, hc⟩, hr, hw, -⟩
  have hpos : 0 < s.capacity := Nat.zero_lt_of_lt hr
  have hlt : len s < s.capacity := len_lt hpos
  refine ⟨len_eq_emod hpos, hlt, ?_, fun width hwidth => ?_, fun h1 => by omega⟩
  · rcases len_cases hr hw with ⟨h, e⟩ | ⟨h, e⟩
    · rw [if_pos h, e]
    · rw [if_neg h.not_ge, e]
  · exact lenMasked_eq_len hc ((Nat.pow_le_pow_iff_right one_lt_two).1 (hc ▸ hwidth))

/-- Settles O36: both predicates by the length, and the length by the cursors. -/
theorem emptyAndFullFromCursors : Obligations.EmptyAndFullFromCursors := by
  rintro s ⟨-, hr, hw, -⟩
  have hpos : 0 < s.capacity := Nat.zero_lt_of_lt hr
  have hlt : len s < s.capacity := len_lt hpos
  refine ⟨isEmpty_iff_len, isEmpty_iff_len.trans (len_eq_zero_iff hr hw), isFull_iff_len hpos,
    (isFull_iff_len hpos).trans (len_eq_capacity_sub_one_iff hr hw), fun h1 => ?_⟩
  exact ⟨isEmpty_iff_len.2 (by omega), (isFull_iff_len hpos).2 (by omega)⟩

/-- Settles O38: the written items of each effect; what an effect does not write is as before by `rfl`. -/
theorem onlyTheseOperationsWrite : Obligations.OnlyTheseOperationsWrite := by
  intro i s t h
  cases exec_effect h with
  | answer r => exact ⟨rfl, rfl, .inl rfl, .inl rfl, .inl rfl, .inl rfl, fun _ => .inl rfl⟩
  | @init c hc =>
    obtain ⟨hpos, -⟩ := (capacityOk_iff _ _).1 hc
    exact ⟨rfl, rfl, .inr (.inl ⟨c, rfl, rfl, rfl⟩), .inr ⟨c, rfl, rfl, Int.toNat_of_nonneg hpos.le⟩,
      .inr (.inl ⟨c, rfl, rfl, rfl⟩), .inr (.inl ⟨c, rfl, rfl, rfl⟩),
      fun a => .inr (.inr (.inl ⟨c, rfl, rfl, read_zeroFilled a⟩))⟩
  | destroy =>
    exact ⟨rfl, rfl, .inr (.inr ⟨rfl, rfl⟩), .inl rfl, .inl rfl, .inl rfl, fun _ => .inr (.inl rfl)⟩
  | @wrat p v _ h0 _ =>
    refine ⟨rfl, rfl, .inl rfl, .inl rfl, .inl rfl, .inl rfl, fun a => ?_⟩
    obtain hread | ⟨rfl, hread⟩ := read_write_cases s.storage p.toNat a v
    · exact .inl hread
    · exact .inr (.inr (.inr (.inr (.inl ⟨p, v, rfl, (Int.toNat_of_nonneg h0).symm, rfl, hread⟩))))
  | clear =>
    exact ⟨rfl, rfl, .inl rfl, .inl rfl, .inr (.inr (.inl ⟨rfl, rfl⟩)), .inr (.inr (.inl ⟨rfl, rfl⟩)),
      fun a => .inr (.inr (.inr (.inl ⟨rfl, read_zeroFilled a⟩)))⟩
  | @enq v =>
    refine ⟨rfl, rfl, .inl rfl, .inl rfl, .inl rfl, .inr (.inr (.inr ⟨⟨v, rfl⟩, rfl, rfl⟩)), fun a => ?_⟩
    obtain hread | ⟨rfl, hread⟩ := read_write_cases s.storage s.wrPtr a v
    · exact .inl hread
    · exact .inr (.inr (.inr (.inr (.inr ⟨v, rfl, rfl, rfl, hread⟩))))
  | deq =>
    exact ⟨rfl, rfl, .inl rfl, .inl rfl, .inr (.inr (.inr ⟨rfl, ⟨_, rfl⟩, rfl⟩)), .inl rfl,
      fun _ => .inl rfl⟩

/-- Settles O32: without a buffer only IDLE and INIT complete, and the reset state holds none. -/
theorem resetHoldsNoBuffer : Obligations.ResetHoldsNoBuffer := by
  refine ⟨rfl, rfl, fun i => ?_⟩
  by_cases hidle : i = .idle
  · exact .inl hidle
  by_cases hinit : ∃ c, i = .init c
  · exact .inr (.inl hinit)
  · exact .inr (.inr (exec_unalloc rfl hidle (not_exists.1 hinit)))

/-- Settles O33: the reference parameters are legal, registers at 0 fit any width, and the storage lists no
slot. -/
theorem invariantHoldsAtReset : Obligations.InvariantHoldsAtReset :=
  ⟨by decide, ⟨Nat.two_pow_pos _, Nat.two_pow_pos _, Nat.two_pow_pos _⟩, unspecified_wf 0,
    fun ha => nomatch ha⟩

end Sys2Proof.Machine
end

section
/-!
SUPPORT. The memory primitives on and off their domain, and the four instructions that access a slot where
the access is made, as equations on `exec` (20_memory.md R51, R55).
-/
namespace Sys2Proof.Machine

/-! ### The primitives -/

theorem memRead_inside {s : State} {a : Nat} (h : HasSlot s a) : memRead s a = some (s.storage.read a) :=
  if_pos h

theorem memRead_outside {s : State} {a : Nat} (h : ¬HasSlot s a) : memRead s a = none :=
  if_neg h

theorem memWrite_inside {s : State} {a : Nat} (v : Byte) (h : HasSlot s a) :
    memWrite s a v = some { s with storage := s.storage.write a v } :=
  if_pos h

theorem memWrite_outside {s : State} {a : Nat} (v : Byte) (h : ¬HasSlot s a) : memWrite s a v = none :=
  if_neg h

theorem not_hasSlot_iff {s : State} {a : Nat} : ¬HasSlot s a ↔ s.alloc = false ∨ s.capacity ≤ a := by
  rw [not_and_or, Bool.not_eq_true, not_lt]

/-! ### The instructions -/

/-- The position of a slot that exists names that slot (20_memory.md R56). -/
theorem absoluteSlot_of_hasSlot {s : State} {a : Nat} (h : HasSlot s a) : absoluteSlot s a = some a :=
  absoluteSlot_inside (Int.natCast_nonneg a) (Int.ofNat_lt.2 h.2)

/-- RDAT of a slot that exists answers the byte the slot reads (41_positional_access.md R110). -/
theorem exec_rdat_slot {s : State} {a : Nat} {b : Byte} (h : HasSlot s a) (hb : s.storage.read a = b) :
    exec (.rdat a) s = .next { s with rsp := .byte b } := by
  subst hb
  rw [show exec (.rdat a) s = execRdat a s from rfl, execRdat, requireBuffer_alloc h.1,
    absoluteSlot_of_hasSlot h]
  exact loadThen_inside h

/-- WRAT to a slot that exists (41_positional_access.md R111). -/
theorem exec_wrat_slot {s : State} {a : Nat} (v : Byte) (h : HasSlot s a) :
    exec (.wrat a v) s = .next { s with storage := s.storage.write a v, rsp := .status .ok } := by
  rw [show exec (.wrat a v) s = execWrat a v s from rfl, execWrat, requireBuffer_alloc h.1,
    absoluteSlot_of_hasSlot h]
  exact storeThen_inside h

/-- ENQ on a buffer that is not full (44_fifo_protocol.md R130). -/
theorem exec_enq_slot {s : State} (v : Byte) (h : HasSlot s s.wrPtr) (hfull : isFull s = false) :
    exec (.enq v) s = .next { advanceWrite { s with storage := s.storage.write s.wrPtr v } with
      rsp := .status .ok } := by
  rw [show exec (.enq v) s = execEnq v s from rfl, execEnq, requireBuffer_alloc h.1, hfull]
  exact storeThen_inside h

/-- DEQ on a buffer that is not empty (44_fifo_protocol.md R131). -/
theorem exec_deq_slot {s : State} (h : HasSlot s s.rdPtr) (hempty : isEmpty s = false) :
    exec .deq s = .next { advanceRead s with rsp := .byte (s.storage.read s.rdPtr) } := by
  rw [show exec .deq s = execDeq s from rfl, execDeq, requireBuffer_alloc h.1, hempty]
  exact loadThen_inside h

/-- A successful INIT and CLEAR both leave a buffer whose storage is the zero fill (20_memory.md R57). -/
theorem zeroFilled_of_init_or_clear {s t : State} {i : Instr} (h : exec i s = .next t)
    (hok : t.rsp = .status .ok) (hi : (∃ c, i = .init c) ∨ i = .clear) :
    t.alloc = true ∧ t.storage = Storage.zeroFilled := by
  obtain ⟨c, rfl⟩ | rfl := hi
  · obtain ⟨-, rfl⟩ | ⟨-, rfl⟩ := execInit_next h
    · exact ⟨rfl, rfl⟩
    · cases hok
  · obtain ⟨ha, rfl⟩ := execClear_next h
    exact ⟨ha, rfl⟩

end Sys2Proof.Machine
end

section
/-! PROOFS. The statements of 20_memory.md. -/
namespace Sys2Proof.Machine

/-- Settles O41: the guard of both primitives is `HasSlot`, and the written storage obeys the laws of a read
after a write. -/
theorem memoryPrimitivesOnTheirDomain : Obligations.MemoryPrimitivesOnTheirDomain := by
  refine fun s a v => ⟨fun ha hlt => ?_, fun hout => ?_⟩
  · have hslot : HasSlot s a := ⟨ha, hlt⟩
    exact ⟨memRead_inside hslot, _, memWrite_inside v hslot, read_write_same _ _ _,
      fun _ hb => read_write_other _ v hb⟩
  · have hslot : ¬HasSlot s a := not_hasSlot_iff.2 hout
    exact ⟨memRead_outside hslot, memWrite_outside v hslot⟩

/-- Settles O42: in each clause the first command writes `v` to a slot that exists and the second reads that
slot, which still exists because neither write touches `alloc` or `capacity`; so `read_write_same` gives
the byte. -/
theorem readReturnsLatestWrite : Obligations.ReadReturnsLatestWrite := by
  rintro s v ha ⟨-, hr, hw, -⟩
  refine ⟨fun p h0 hp => ?_, fun hlen => ?_, fun hlen => ?_⟩
  · lift p to ℕ using h0
    have hslot : HasSlot s p := ⟨ha, Int.ofNat_lt.1 hp⟩
    exact ⟨_, exec_wrat_slot v hslot, exec_rdat_slot hslot (read_write_same _ _ _)⟩
  · have hfull : isFull s = false :=
      Bool.eq_false_iff.2 (mt (isFull_iff_len (Nat.zero_lt_of_lt hr)).1 hlen)
    have hslot : HasSlot s s.wrPtr := ⟨ha, hw⟩
    exact ⟨_, exec_enq_slot v hslot hfull, exec_rdat_slot hslot (read_write_same _ _ _)⟩
  · have hslot : HasSlot s s.rdPtr := ⟨ha, hr⟩
    have hempty : isEmpty s = false := Bool.eq_false_iff.2 (mt isEmpty_iff_len.1 hlen)
    exact ⟨_, _, exec_wrat_slot v hslot, exec_deq_slot hslot hempty,
      congrArg Rsp.byte (read_write_same _ _ _)⟩

/-- Settles O43: both commands leave the zero fill, and every slot of it reads 0. -/
theorem zeroFillReadsZero : Obligations.ZeroFillReadsZero := by
  intro s t i h hok hi p h0 hp
  obtain ⟨ha, hzero⟩ := zeroFilled_of_init_or_clear h hok hi
  lift p to ℕ using h0
  exact exec_rdat_slot ⟨ha, Int.ofNat_lt.1 hp⟩ (hzero ▸ read_zeroFilled p)

/-- Settles O44: a DEQ that answers a byte moves `rd_ptr` alone, so the slot it read still exists and holds
the byte. -/
theorem deqLeavesTheByteInItsSlot : Obligations.DeqLeavesTheByteInItsSlot := by
  intro s t b h hb
  obtain ⟨ha, ⟨-, rfl⟩ | ⟨-, hr, rfl⟩⟩ := execDeq_next h
  · cases hb
  · cases hb
    exact ⟨rfl, exec_rdat_slot ⟨ha, hr⟩ rfl⟩

end Sys2Proof.Machine
end

section
/-!
SUPPORT. The signed operand and its field (30_encoding.md R75, R79), the fields of a packed word (R71), and
which words decode to which instruction (R73, R81).
-/
namespace Sys2Proof

/-! ### The signed operand: `sint` and `argField` are the two readings of one bit vector -/

theorem sint_eq_toInt {n f : Nat} (hf : f < 2 ^ n) : sint n f = (BitVec.ofNat n f).toInt := by
  have hhalf : f < 2 ^ (n - 1) ↔ 2 * f < 2 ^ n := by
    cases n with
    | zero =>
      obtain rfl : f = 0 := Nat.lt_one_iff.1 hf
      decide
    | succ m => rw [Nat.add_sub_cancel, pow_succ]; omega
  rw [sint, BitVec.toInt_eq_toNat_cond, BitVec.toNat_ofNat, Nat.mod_eq_of_lt hf]
  simp only [hhalf, Nat.cast_pow, Nat.cast_ofNat]

theorem argField_eq_toNat (n : Nat) (x : Int) : argField n x = (BitVec.ofInt n x).toNat := by
  simp [argField, BitVec.toNat_ofInt]

/-- The signed reading is a two's-complement integer of that width. -/
theorem signedRange_sint {n f : Nat} (hf : f < 2 ^ n) : signedRange n (sint n f) := by
  rw [sint_eq_toInt hf]
  exact ⟨BitVec.le_toInt _, BitVec.toInt_lt⟩

/-- The signed reading loses no bit of the field. -/
theorem argField_sint {n f : Nat} (hf : f < 2 ^ n) : argField n (sint n f) = f := by
  rw [sint_eq_toInt hf, argField_eq_toNat, BitVec.ofInt_toInt, BitVec.toNat_ofNat, Nat.mod_eq_of_lt hf]

/-- The field of an integer in range reads as that integer. -/
theorem sint_argField {n : Nat} {x : Int} (hn : 1 ≤ n) (hx : signedRange n x) : sint n (argField n x) = x := by
  obtain ⟨hlow, hhigh⟩ := hx
  rw [sint_eq_toInt (argField_lt n x), argField_eq_toNat, BitVec.ofNat_toNat, BitVec.setWidth_eq,
    BitVec.toInt_ofInt_eq_self hn hlow hhigh]

/-- A field whose top bit is set reads negative. -/
theorem sint_neg {n f : Nat} (hf : f < 2 ^ n) (htop : 2 ^ (n - 1) ≤ f) : sint n f < 0 := by
  rw [sint, if_neg htop.not_gt]
  exact sub_neg_of_lt (by exact_mod_cast hf)

/-! ### The fields of a word -/

theorem bits_lt (w lo width : Nat) : bits w lo width < 2 ^ width := Nat.mod_lt _ (Nat.two_pow_pos _)

theorem signedRange_cwInt (opw w : Nat) : signedRange opw (cwInt opw w) := signedRange_sint (bits_lt w 12 opw)

theorem toNat_cwData (w : Nat) : (cwData w).toNat = w / 2 ^ 4 % 2 ^ 8 :=
  (BitVec.toNat_ofNat _ 8).trans (Nat.mod_mod _ _)

/-- The `arg` field of a command word of `OPW + 12` bits is everything above bit 11. -/
theorem argField_cwInt {opw w : Nat} (hw : w < 2 ^ (opw + 12)) : argField opw (cwInt opw w) = w / 2 ^ 12 := by
  have hfield : w / 2 ^ 12 < 2 ^ opw := Nat.div_lt_of_lt_mul (by rwa [← pow_add, Nat.add_comm])
  exact (argField_sint (bits_lt w 12 opw)).trans (Nat.mod_eq_of_lt hfield)

section Fields
variable {opw arg data op valid : Nat}

theorem cwArg_packWord (ha : arg < 2 ^ opw) (hd : data < 256) (ho : op < 8) (hv : valid < 2) :
    cwArg opw (packWord arg data op valid) = arg := by
  rw [cwArg, bits, packWord_arg _ _ _ _ hd ho hv, Nat.mod_eq_of_lt ha]

theorem toNat_cwData_packWord (hd : data < 256) (ho : op < 8) (hv : valid < 2) :
    (cwData (packWord arg data op valid)).toNat = data :=
  (toNat_cwData _).trans (packWord_data _ _ _ _ hd ho hv)

/-- The signed operand read from the word that packs it. -/
theorem cwInt_packWord_argField {x : Int} (hn : 1 ≤ opw) (hx : signedRange opw x) (hd : data < 256)
    (ho : op < 8) (hv : valid < 2) : cwInt opw (packWord (argField opw x) data op valid) = x := by
  rw [cwInt, cwArg_packWord (argField_lt opw x) hd ho hv, sint_argField hn hx]

/-- The byte operand read from the word that packs it. -/
theorem cwData_packWord_toNat {v : Byte} (ho : op < 8) (hv : valid < 2) :
    cwData (packWord arg v.toNat op valid) = v :=
  BitVec.eq_of_toNat_eq (toNat_cwData_packWord v.isLt ho hv)

end Fields

/-! ### The decoder -/

/-- `StandsFor opw w i`: the word `w` is one of the words of `i`, by its low nibble and the fields that `i`
uses (R73, R75, R76). -/
inductive StandsFor (opw w : Nat) : Instr → Prop where
  | idle : w % 2 = 0 → StandsFor opw w .idle
  | init {c : Int} : w % 16 = 1 → cwInt opw w = c → StandsFor opw w (.init c)
  | destroy : w % 16 = 3 → StandsFor opw w .destroy
  | rdat {pos : Int} : w % 16 = 5 → cwInt opw w = pos → StandsFor opw w (.rdat pos)
  | wrat {pos : Int} {v : Byte} : w % 16 = 7 → cwInt opw w = pos → cwData w = v → StandsFor opw w (.wrat pos v)
  | clear : w % 16 = 9 → StandsFor opw w .clear
  | len : w % 16 = 11 → StandsFor opw w .len
  | enq {v : Byte} : w % 16 = 13 → cwData w = v → StandsFor opw w (.enq v)
  | deq : w % 16 = 15 → StandsFor opw w .deq

/-- Every word stands for what it decodes to (R77). -/
theorem standsFor_decode (opw w : Nat) : StandsFor opw w (decode opw w) := by
  rw [decode_eq]
  split_ifs with h0 h1 h3 h5 h7 h9 h11 h13
  · exact .idle h0
  · exact .init h1 rfl
  · exact .destroy h3
  · exact .rdat h5 rfl
  · exact .wrat h7 rfl rfl
  · exact .clear h9
  · exact .len h11
  · exact .enq h13 rfl
  · exact .deq (by omega)

/-- A word stands for no instruction but the one it decodes to. -/
theorem decode_eq_iff {opw w : Nat} {i : Instr} : decode opw w = i ↔ StandsFor opw w i := by
  refine ⟨fun h => h ▸ standsFor_decode opw w, fun h => ?_⟩
  rw [decode_eq]
  cases h with
  | idle h => rw [if_pos h]
  | init h hc => simp [h, hc, show w % 2 ≠ 0 by omega]
  | rdat h hpos => simp [h, hpos, show w % 2 ≠ 0 by omega]
  | wrat h hpos hv => simp [h, hpos, hv, show w % 2 ≠ 0 by omega]
  | enq h hv => simp [h, hv, show w % 2 ≠ 0 by omega]
  | destroy h | clear h | len h | deq h => simp [h, show w % 2 ≠ 0 by omega]

/-- Words with the same low nibble that agree on the operands its instruction uses decode alike (R76). -/
theorem decode_congr {opw w w' : Nat} (hnibble : w % 16 = w' % 16)
    (hint : w % 16 = 1 ∨ w % 16 = 5 ∨ w % 16 = 7 → cwInt opw w = cwInt opw w')
    (hbyte : w % 16 = 7 ∨ w % 16 = 13 → cwData w = cwData w') : decode opw w = decode opw w' := by
  have hstands := standsFor_decode opw w'
  generalize decode opw w' = i at hstands ⊢
  rw [decode_eq_iff]
  cases hstands with
  | idle h => exact .idle (by omega)
  | init h hc => exact .init (by omega) (hc ▸ hint (by omega))
  | destroy h => exact .destroy (by omega)
  | rdat h hc => exact .rdat (by omega) (hc ▸ hint (by omega))
  | wrat h hc hv => exact .wrat (by omega) (hc ▸ hint (by omega)) (hv ▸ hbyte (by omega))
  | clear h => exact .clear (by omega)
  | len h => exact .len (by omega)
  | enq h hv => exact .enq (by omega) (hv ▸ hbyte (by omega))
  | deq h => exact .deq (by omega)

/-- The canonical word of an instruction whose operands are in range is one of its words. -/
theorem standsFor_encode {opw : Nat} (hn : 1 ≤ opw) {i : Instr} (hi : i.wellFormed opw = true) :
    StandsFor opw (encode opw i) i := by
  cases i with
  | idle => exact .idle rfl
  | init c =>
    exact .init (packWord_mod16 _ _ _ _ (by decide) (by decide))
      (cwInt_packWord_argField hn (of_decide_eq_true hi) (by decide) (by decide) (by decide))
  | destroy => exact .destroy rfl
  | rdat pos =>
    exact .rdat (packWord_mod16 _ _ _ _ (by decide) (by decide))
      (cwInt_packWord_argField hn (of_decide_eq_true hi) (by decide) (by decide) (by decide))
  | wrat pos v =>
    exact .wrat (packWord_mod16 _ _ _ _ (by decide) (by decide))
      (cwInt_packWord_argField hn (of_decide_eq_true hi) v.isLt (by decide) (by decide))
      (cwData_packWord_toNat (by decide) (by decide))
  | clear => exact .clear rfl
  | len => exact .len rfl
  | enq v =>
    exact .enq (packWord_mod16 _ _ _ _ (by decide) (by decide)) (cwData_packWord_toNat (by decide) (by decide))
  | deq => exact .deq rfl

/-! ### The rows of the opcode table: the two masks keep bit 0 and the low nibble -/

theorem accepts_bit (m : String) (pattern w : Nat) :
    OpcodeRow.accepts ⟨m, pattern, 0x1⟩ w = (w % 2 == pattern) :=
  congrArg (· == pattern) (Nat.and_two_pow_sub_one_eq_mod w 1)

theorem accepts_nibble (m : String) (pattern w : Nat) :
    OpcodeRow.accepts ⟨m, pattern, 0xF⟩ w = (w % 16 == pattern) :=
  congrArg (· == pattern) (Nat.and_two_pow_sub_one_eq_mod w 4)

end Sys2Proof
end

section
/-! SUPPORT. The response word and the values an instruction returns (30_encoding.md R72, R75). -/
namespace Sys2Proof.Machine

theorem Rsp.validPort_lt (r : Rsp) : r.validPort < 2 := by
  cases r with
  | noResponse => exact Nat.two_pos
  | status _ | byte _ | len _ => exact Nat.one_lt_two

theorem Status.code_lt (e : Status) : e.code < 4 := by
  cases e <;> decide

theorem Rsp.statusPort_lt (r : Rsp) : r.statusPort < 4 := by
  cases r with
  | status e => exact e.code_lt
  | noResponse | byte _ | len _ => exact Nat.zero_lt_succ _

/-- A response whose value fits `val` fits its word. -/
theorem Rsp.word_lt {opw : Nat} {r : Rsp} (h : r.valPort < 2 ^ opw) : r.word < 2 ^ (opw + 3) := by
  have := r.validPort_lt
  have := r.statusPort_lt
  rw [Rsp.word, pow_add]
  omega

/-- Only LEN answers a length, and it is the length of the buffer. -/
theorem exec_answers_len {i : Instr} {s t : State} {n : Nat} (h : exec i s = .next t)
    (hn : t.rsp = .len n) : s.alloc = true ∧ t = { s with rsp := .len n } ∧ n = Machine.len s := by
  cases i with
  | len =>
    obtain ⟨ha, rfl⟩ := execLen_next h
    cases hn
    exact ⟨ha, rfl, rfl⟩
  | idle => cases execIdle_next h; cases hn
  | init c => obtain ⟨-, rfl⟩ | ⟨-, rfl⟩ := execInit_next h <;> cases hn
  | destroy => obtain ⟨-, rfl⟩ := execDestroy_next h; cases hn
  | rdat pos => obtain ⟨-, ⟨-, -, rfl⟩ | ⟨-, rfl⟩⟩ := execRdat_next h <;> cases hn
  | wrat pos v => obtain ⟨-, ⟨-, -, rfl⟩ | ⟨-, rfl⟩⟩ := execWrat_next h <;> cases hn
  | clear => obtain ⟨-, rfl⟩ := execClear_next h; cases hn
  | enq v => obtain ⟨-, ⟨-, rfl⟩ | ⟨-, -, rfl⟩⟩ := execEnq_next h <;> cases hn
  | deq => obtain ⟨-, ⟨-, rfl⟩ | ⟨-, -, rfl⟩⟩ := execDeq_next h <;> cases hn

/-- The length is below the capacity, which is at most `2^MAX_LOG2`, and `MAX_LOG2 <= OPW - 2`. -/
theorem len_lt_of_stateInv {s : State} (hs : StateInv s) (ha : s.alloc = true) :
    len s < 2 ^ (s.params.opw - 2) := by
  obtain ⟨hp, -, -, hbuf⟩ := hs
  obtain ⟨⟨k, hk, hc⟩, hr, -⟩ := hbuf ha
  calc len s < s.capacity := len_lt (Nat.zero_lt_of_lt hr)
    _ = 2 ^ k := hc
    _ ≤ 2 ^ (s.params.opw - 2) := Nat.pow_le_pow_right two_pos (hk.trans (Nat.le_sub_of_add_le hp))

end Sys2Proof.Machine
end

section
/-! PROOFS. The statements of 30_encoding.md. -/
namespace Sys2Proof.Machine

/-- Settles O10: the canonical word is one of the words of its instruction, and a word stands for the
instruction it decodes to alone. -/
theorem decodeEncodeRoundTrip : Obligations.DecodeEncodeRoundTrip :=
  fun _ _ hn hi => decode_eq_iff.2 (standsFor_encode hn hi)

/-- Settles O11: by the instruction the word stands for; its used fields are packed back where they were. -/
theorem encodeDecodeZeroesIgnoredFields : Obligations.EncodeDecodeZeroesIgnoredFields := by
  intro opw w _ hw
  have harg := argField_cwInt hw
  have hdata := toNat_cwData w
  have hstands := standsFor_decode opw w
  generalize decode opw w = i at hstands
  cases hstands with
  | idle h => rw [if_pos h]; rfl
  | init h hc | rdat h hc => simp [encode, packWord, ← hc, harg, h, show w % 2 = 1 by omega]
  | @wrat pos v h hc hv =>
    have hword : encode opw (.wrat pos v) = w := by
      rw [encode, packWord, ← hc, ← hv, harg, hdata]
      omega
    simp [hword, h, show w % 2 = 1 by omega]
  | @enq v h hv =>
    have hword : encode opw (.enq v) = w % 2 ^ 12 := by
      rw [encode, packWord, ← hv, hdata]
      omega
    simp [hword, h, show w % 2 = 1 by omega]
  | destroy h | clear h | len h | deq h => simp [encode, packWord, h, show w % 2 = 1 by omega]

/-- Settles O12: such words stand for the same instruction, so the step runs the same command. -/
theorem ignoredFieldsHaveNoEffect : Obligations.IgnoredFieldsHaveNoEffect := by
  intro s w w' rest h
  rw [step_of_command rfl rfl, step_of_command rfl rfl]
  refine congrArg (exec · { s with inputs := rest }) ?_
  obtain ⟨h0, h0'⟩ | ⟨hnibble, harg, hdata⟩ := h
  · exact (decode_eq_iff.2 (.idle h0)).trans (decode_eq_iff.2 (.idle h0')).symm
  · exact decode_congr hnibble (fun hop => congrArg (sint s.params.opw) (harg hop))
      (fun hop => congrArg (BitVec.ofNat 8) (hdata hop))

/-- Settles O13: the rows test bit 0 and the low nibble, which tell the instruction the word stands for. -/
theorem everyWordMatchesOneOpcodeRow : Obligations.EveryWordMatchesOneOpcodeRow := by
  intro opw w
  have hstands := standsFor_decode opw w
  generalize decode opw w = i at hstands
  simp only [opcodeRows, List.filter, accepts_bit, accepts_nibble]
  cases hstands with
  | idle h =>
    have hne (k : Nat) (hk : k % 2 = 1) : (w % 16 == k) = false := beq_false_of_ne (by omega)
    simp [h, hne, Instr.mnemonic]
  | init h | destroy h | rdat h | wrat h | clear h | len h | enq h | deq h =>
    simp [h, show w % 2 = 1 by omega, Instr.mnemonic]

/-- Settles O14: the signed operand of any word is in range. -/
theorem decodedInstrIsWellFormed : Obligations.DecodedInstrIsWellFormed := by
  intro opw w _
  have hstands := standsFor_decode opw w
  generalize decode opw w = i at hstands
  cases hstands with
  | init _ hc | rdat _ hc | wrat _ hc => exact decide_eq_true (hc ▸ signedRange_cwInt opw w)
  | idle | destroy | clear | len | enq | deq => rfl

/-- Settles O16: each field from its place in the packed word. -/
theorem commandWordFieldsAtTheirBits : Obligations.CommandWordFieldsAtTheirBits := by
  intro opw arg data op valid ha hd ho hv
  have hnibble := packWord_mod16 arg data op valid ho hv
  refine ⟨?_, ?_, toNat_cwData_packWord hd ho hv, cwArg_packWord ha hd ho hv, packWord_lt ha hd ho hv⟩
  · rw [cwValid_eq]; omega
  · rw [cwOp_eq]; omega

/-- Settles O17: the two low ports fit below the value, so each port stands at its bits. -/
theorem responseWordFieldsAtTheirBits : Obligations.ResponseWordFieldsAtTheirBits := by
  refine ⟨fun opw r hval => ?_, rfl, rfl, rfl, rfl, rfl, fun _ => rfl, fun _ => rfl⟩
  have hvalid := r.validPort_lt
  have hstatus := r.statusPort_lt
  have habove : r.word / 2 ^ 3 = r.valPort := by rw [Rsp.word]; omega
  refine ⟨?_, ?_, ?_, Rsp.word_lt hval⟩
  · rw [bits, Rsp.word]; omega
  · rw [bits, Rsp.word]; omega
  · rw [bits, habove, Nat.mod_eq_of_lt hval]

/-- Settles O18: the reading of a bit vector as an integer, and `MAX_LOG2 < OPW - 1`. -/
theorem signedOperandReading : Obligations.SignedOperandReading := by
  intro p f hp hf
  refine ⟨signedRange_sint hf, argField_sint hf, fun htop => ⟨sint_neg hf htop, ?_⟩⟩
  have hlog : p.maxLog2 < p.opw - 1 := Nat.lt_sub_of_add_lt hp
  exact (Nat.pow_lt_pow_right one_lt_two hlog).trans_le htop

/-- Settles O51: only LEN answers a length, and every other value is a byte or 0. -/
theorem returnedValuesFit : Obligations.ReturnedValuesFit := by
  intro i s t hs h
  have hlen (n : Nat) (hn : t.rsp = .len n) : n < 2 ^ (t.params.opw - 2) := by
    obtain ⟨ha, rfl, rfl⟩ := exec_answers_len h hn
    exact len_lt_of_stateInv hs ha
  have hbyte (b : Byte) : b.toNat < 2 ^ 8 := b.isLt
  refine ⟨hlen, fun b hb => hb ▸ Nat.le_of_lt_succ (hbyte b), fun hopw => Rsp.word_lt ?_⟩
  cases hr : t.rsp with
  | noResponse | status _ => exact Nat.two_pow_pos _
  | byte b => exact (hbyte b).trans_le (Nat.pow_le_pow_right two_pos hopw)
  | len n => exact (hlen n hr).trans_le (Nat.pow_le_pow_right two_pos (Nat.sub_le _ _))

/-- Settles O15: the decoder evaluated on each word. -/
theorem sampleWordsDecode : Obligations.SampleWordsDecode := by
  unfold Obligations.SampleWordsDecode
  decide

/-- Settles O21: the assembler evaluated on each line. -/
theorem exampleLinesAssemble : Obligations.ExampleLinesAssemble := by
  unfold Obligations.ExampleLinesAssemble
  decide

end Sys2Proof.Machine
end

section
/-!
SUPPORT. The bit test of a power of two (40_init_destroy.md R100, 93_implementation_defined.md G3).
-/
namespace Sys2Proof

/-- The top bit of an `n`-bit field is clear exactly on the lower half of its values. -/
theorem testBit_top_eq_false_iff {n f : Nat} (hn : 1 ≤ n) (hf : f < 2 ^ n) :
    f.testBit (n - 1) = false ↔ f < 2 ^ (n - 1) := by
  refine ⟨fun h => ?_, Nat.testBit_eq_false_of_lt⟩
  by_contra htop
  have hset : f.testBit (n - 1) = true :=
    Nat.testBit_of_two_pow_le_and_two_pow_add_one_gt (not_lt.1 htop) (by rwa [Nat.sub_add_cancel hn])
  exact Bool.false_ne_true (h.symm.trans hset)

/-- A field whose top bit is clear reads as it stands. -/
theorem sint_of_lt {n f : Nat} (h : f < 2 ^ (n - 1)) : sint n f = f := if_pos h

/-- A natural number is an integer power of two exactly when it passes the bit test. -/
theorem natCast_eq_two_pow_iff_bits {f : Nat} :
    (∃ k : Nat, (f : Int) = 2 ^ k) ↔ f ≠ 0 ∧ f &&& (f - 1) = 0 := by
  rw [Nat.ne_zero_and_sub_one_eq_zero_iff_isPowerOfTwo]
  exact exists_congr fun k => by norm_cast

end Sys2Proof
end

section
/-! SUPPORT. The flags of a buffer whose cursors are both 0, as INIT and CLEAR leave it (R100, R120). -/
namespace Sys2Proof.Machine

theorem len_of_cursors_zero {s : State} (hr : s.rdPtr = 0) (hw : s.wrPtr = 0) : len s = 0 := by
  simp [len, hr, hw]

theorem isEmpty_of_cursors_zero {s : State} (hr : s.rdPtr = 0) (hw : s.wrPtr = 0) : isEmpty s = true :=
  isEmpty_iff_len.2 (len_of_cursors_zero hr hw)

/-- One slot is always kept free, so with both cursors 0 only a single slot leaves no room (R28). -/
theorem isFull_iff_of_cursors_zero {s : State} (hr : s.rdPtr = 0) (hw : s.wrPtr = 0) :
    isFull s = true ↔ s.capacity = 1 := by
  rw [isFull, decide_eq_true_eq, len_of_cursors_zero hr hw]
  omega

end Sys2Proof.Machine
end

section
/-! PROOFS. The statements of 40_init_destroy.md. -/
namespace Sys2Proof.Machine

/-- Settles O2: INIT's test is the premise of the first two clauses, the buffer it creates is the zero fill
with both cursors 0, and the answer `OK` tells that it created one. -/
theorem initCreatesOrRefuses : Obligations.InitCreatesOrRefuses := by
  refine ⟨fun s c hc => ?_, fun s c hc => ?_, fun s t c h hok => ?_, fun _ _ h => ?_⟩
  · exact ⟨Storage.zeroFilled, execInit_accepts ((capacityOk_iff _ _).2 hc), fun a _ => read_zeroFilled a⟩
  · exact execInit_refuses (Bool.eq_false_iff.2 (mt (capacityOk_iff _ _).1 hc))
  · obtain ⟨-, rfl⟩ | ⟨-, rfl⟩ := execInit_next h
    · have hone : c.toNat = 1 ↔ c = 1 := by omega
      exact ⟨len_of_cursors_zero rfl rfl, isEmpty_of_cursors_zero rfl rfl,
        (isFull_iff_of_cursors_zero rfl rfl).trans hone⟩
    · cases hok
  · exact decode_eq_iff.2 (.init h rfl)

/-- Settles O19, by the top bit: a field with it clear reads as itself, and one with it set reads negative. -/
theorem powerOfTwoTestOnBits : Obligations.PowerOfTwoTestOnBits := by
  intro opw f hn hf
  rw [testBit_top_eq_false_iff hn hf, ← natCast_eq_two_pow_iff_bits]
  by_cases hlow : f < 2 ^ (opw - 1)
  · rw [sint_of_lt hlow, and_iff_right hlow, and_iff_right_iff_imp]
    rintro ⟨k, hk⟩
    exact hk ▸ by positivity
  · have hneg : sint opw f < 0 := sint_neg hf (not_lt.1 hlow)
    exact iff_of_false (fun h => hneg.not_gt h.1) (fun h => hlow h.1)

/-- Settles O3: the two cases of `requireBuffer`, and the words of DESTROY. -/
theorem destroyGivesBufferUp : Obligations.DestroyGivesBufferUp :=
  ⟨fun _ ha => ⟨_, _, requireBuffer_alloc ha⟩, fun _ ha => requireBuffer_unalloc ha,
    fun _ _ h => decode_eq_iff.2 (.destroy h), fun _ => rfl⟩

end Sys2Proof.Machine
end

section
/-! SUPPORT. RDAT and WRAT at a position out of range, and the byte operand of a word (R110, R111, R71). -/
namespace Sys2Proof.Machine

/-- RDAT of a position that names no slot answers `INVALID` (41_positional_access.md R110). -/
theorem exec_rdat_outside {s : State} {p : Int} (ha : s.alloc = true)
    (hp : p < 0 ∨ (s.capacity : Int) ≤ p) : exec (.rdat p) s = .next { s with rsp := .status .invalid } := by
  rw [show exec (.rdat p) s = execRdat p s from rfl, execRdat, requireBuffer_alloc ha,
    absoluteSlot_outside hp]
  rfl

/-- WRAT to a position that names no slot answers `INVALID` (41_positional_access.md R111). -/
theorem exec_wrat_outside {s : State} {p : Int} (v : Byte) (ha : s.alloc = true)
    (hp : p < 0 ∨ (s.capacity : Int) ≤ p) :
    exec (.wrat p v) s = .next { s with rsp := .status .invalid } := by
  rw [show exec (.wrat p v) s = execWrat p v s from rfl, execWrat, requireBuffer_alloc ha,
    absoluteSlot_outside hp]
  rfl

/-- A byte keeps the low eight bits by its type, so the field needs no mask of its own. -/
theorem cwData_eq_ofNat (w : Nat) : cwData w = BitVec.ofNat 8 (w / 2 ^ 4) :=
  BitVec.eq_of_toNat_eq ((toNat_cwData w).trans (BitVec.toNat_ofNat _ 8).symm)

end Sys2Proof.Machine
end

section
/-! PROOFS. The statements of 41_positional_access.md. -/
namespace Sys2Proof.Machine

/-- Settles O5: in range WRAT writes the slot that `p` names, which reads back as a write does; a completed
WRAT leaves `capacity` and the cursors alone, and with them the length and both flags. -/
theorem wratWritesSlot : Obligations.WratWritesSlot := by
  refine ⟨fun s p v ha h0 hp => ?_, fun _ _ v ha hp => exec_wrat_outside v ha hp,
    fun _ _ _ ha => requireBuffer_unalloc ha, fun s t p v h => ?_,
    fun _ w h => decode_eq_iff.2 (.wrat h rfl (cwData_eq_ofNat w))⟩
  · lift p to ℕ using h0
    exact ⟨_, exec_wrat_slot v ⟨ha, Int.ofNat_lt.1 hp⟩, read_write_same _ _ _,
      fun _ hne => read_write_other _ v hne⟩
  · obtain ⟨-, ⟨-, -, rfl⟩ | ⟨-, rfl⟩⟩ := execWrat_next h <;>
      exact ⟨len_congr rfl rfl rfl, isEmpty_congr rfl rfl rfl, isFull_congr rfl rfl rfl⟩

/-- Settles O40: what decides the answer (`alloc`, the range of `p` against `capacity`, the byte of the
slot) is the same in both states, so each case of R110 answers alike. -/
theorem rdatDoesNotSeeTheCursors : Obligations.RdatDoesNotSeeTheCursors := by
  intro s p rd wr
  obtain ha | ha := Bool.eq_false_or_eq_true s.alloc
  · refine .inl ?_
    by_cases hp : p < 0 ∨ (s.capacity : Int) ≤ p
    · exact ⟨_, exec_rdat_outside ha hp, exec_rdat_outside (s := { s with rdPtr := rd, wrPtr := wr }) ha hp⟩
    · lift p to ℕ using by omega
      have hslot : HasSlot s p := ⟨ha, by omega⟩
      exact ⟨_, exec_rdat_slot hslot rfl,
        exec_rdat_slot (s := { s with rdPtr := rd, wrPtr := wr }) hslot rfl⟩
  · exact .inr ⟨_, requireBuffer_unalloc ha, requireBuffer_unalloc ha⟩

/-- Settles O4: the slot that `p` names in range, no slot out of range, no buffer, and the words of RDAT. -/
theorem rdatReadsSlot : Obligations.RdatReadsSlot := by
  refine ⟨fun s p ha h0 hp => ?_, fun _ _ ha hp => exec_rdat_outside ha hp,
    fun _ _ ha => requireBuffer_unalloc ha, fun _ _ h => decode_eq_iff.2 (.rdat h rfl)⟩
  lift p to ℕ using h0
  exact exec_rdat_slot ⟨ha, Int.ofNat_lt.1 hp⟩ rfl

end Sys2Proof.Machine
end

section
/-! SUPPORT. CLEAR with a buffer, and its buffer as the one INIT creates (42_clear.md R120). -/
namespace Sys2Proof.Machine

theorem execClear_alloc {s : State} (ha : s.alloc = true) :
    execClear s = .next { clearBuffer s with rsp := .status .ok } :=
  requireBuffer_alloc ha

/-- The capacity of a buffer that meets R26 is one INIT accepts. -/
theorem capacityOk_of_bufferOk {s : State} (h : BufferOk s) : capacityOk s.params s.capacity = true := by
  obtain ⟨⟨k, hk, hc⟩, -⟩ := h
  have hpow : (s.capacity : Int) = 2 ^ k := by rw [hc]; norm_cast
  rw [capacityOk_iff, hpow]
  exact ⟨by positivity, ⟨k, rfl⟩, pow_le_pow_right₀ one_le_two hk⟩

/-- With a buffer, `alloc` and `capacity` already hold what a new buffer of the same size sets. -/
theorem clearBuffer_eq_createBuffer {s : State} (ha : s.alloc = true) :
    clearBuffer s = createBuffer s.capacity s := by
  rw [clearBuffer, createBuffer, ← ha]

end Sys2Proof.Machine
end

section
/-! PROOFS. The statements of 42_clear.md. -/
namespace Sys2Proof.Machine

/-- Settles O45: INIT accepts the current capacity, and the buffer it creates is the cleared one. -/
theorem clearIsInitWithTheSameCapacity : Obligations.ClearIsInitWithTheSameCapacity := by
  intro s ha hok
  calc exec .clear s = .next { clearBuffer s with rsp := .status .ok } := execClear_alloc ha
    _ = .next { createBuffer s.capacity s with rsp := .status .ok } := by rw [clearBuffer_eq_createBuffer ha]
    _ = exec (.init s.capacity) s := (execInit_accepts (capacityOk_of_bufferOk hok)).symm

/-- Settles O6: the two cases of `requireBuffer`, the zero fill, the flags of a buffer with both cursors 0,
and the words of CLEAR. -/
theorem clearEmptiesAndZeroes : Obligations.ClearEmptiesAndZeroes := by
  refine ⟨fun s ha => ?_, fun _ ha => requireBuffer_unalloc ha, fun s t h => ?_,
    fun _ _ h => decode_eq_iff.2 (.clear h), fun _ => rfl⟩
  · exact ⟨Storage.zeroFilled, execClear_alloc ha, fun a _ => read_zeroFilled a⟩
  · obtain ⟨-, rfl⟩ := execClear_next h
    exact ⟨len_of_cursors_zero rfl rfl, isEmpty_of_cursors_zero rfl rfl, isFull_iff_of_cursors_zero rfl rfl⟩

end Sys2Proof.Machine
end

section
/-! PROOFS. The statements of 43_length.md. -/
namespace Sys2Proof.Machine

/-- On a buffer that meets R26 the length is at most `capacity - 1` and is the masked subtraction at any
operand width R5 allows: the capacity is `2^k` with `k <= MAX_LOG2 <= OPW - 2`. -/
theorem len_le_and_eq_lenMasked {s : State} (hp : s.params.Ok) (hok : BufferOk s) :
    len s ≤ s.capacity - 1 ∧ len s = lenMasked s.params.opw s := by
  obtain ⟨⟨k, hk, hc⟩, hr, -⟩ := hok
  have hwidth : k ≤ s.params.opw := hk.trans (le_of_add_le_left hp)
  exact ⟨Nat.le_sub_one_of_lt (len_lt (Nat.zero_lt_of_lt hr)), (lenMasked_eq_len hc hwidth).symm⟩

/-- Settles O7: the two cases of `requireBuffer`, the bound and mask form of the length, and the words of
LEN. -/
theorem lenReturnsCursorDistance : Obligations.LenReturnsCursorDistance :=
  ⟨fun _ ha => requireBuffer_alloc ha, fun _ ha => requireBuffer_unalloc ha,
    fun _ hp hok => len_le_and_eq_lenMasked hp hok, fun _ _ h => decode_eq_iff.2 (.len h), fun _ => rfl⟩

end Sys2Proof.Machine
end

section
/-!
SUPPORT. The queue's logical content and its length under each command: ENQ and DEQ on either side of their
test, as equations on `exec`, and what moving a cursor does to the queue (44_fifo_protocol.md R130 to R134).
-/
namespace Sys2Proof.Machine

/-! ### ENQ and DEQ, by the length -/

/-- ENQ with room stores at `wr_ptr` and advances it (R130). -/
theorem exec_enq_of_room {s : State} (v : Byte) (ha : s.alloc = true) (hok : BufferOk s)
    (hlen : len s ≠ s.capacity - 1) :
    exec (.enq v) s = .next { advanceWrite { s with storage := s.storage.write s.wrPtr v } with
      rsp := .status .ok } := by
  obtain ⟨-, -, hw, -⟩ := hok
  exact exec_enq_slot v ⟨ha, hw⟩ (Bool.eq_false_iff.2 (mt (isFull_iff_len (Nat.zero_lt_of_lt hw)).1 hlen))

/-- ENQ at length `capacity - 1` answers `FULL` and changes nothing (R130). -/
theorem exec_enq_of_full {s : State} (v : Byte) (ha : s.alloc = true) (hok : BufferOk s)
    (hlen : len s = s.capacity - 1) : exec (.enq v) s = .next { s with rsp := .status .full } := by
  obtain ⟨-, hr, -⟩ := hok
  rw [show exec (.enq v) s = execEnq v s from rfl, execEnq, requireBuffer_alloc ha,
    if_pos ((isFull_iff_len (Nat.zero_lt_of_lt hr)).2 hlen)]
  rfl

/-- DEQ of a queued byte reads it at `rd_ptr` and advances that cursor (R131). -/
theorem exec_deq_of_queued {s : State} (ha : s.alloc = true) (hok : BufferOk s) (hlen : len s ≠ 0) :
    exec .deq s = .next { advanceRead s with rsp := .byte (s.storage.read s.rdPtr) } := by
  obtain ⟨-, hr, -⟩ := hok
  exact exec_deq_slot ⟨ha, hr⟩ (Bool.eq_false_iff.2 (mt isEmpty_iff_len.1 hlen))

/-- DEQ at length 0 answers `EMPTY` and changes nothing (R131). -/
theorem exec_deq_of_empty {s : State} (ha : s.alloc = true) (hlen : len s = 0) :
    exec .deq s = .next { s with rsp := .status .empty } := by
  rw [show exec .deq s = execDeq s from rfl, execDeq, requireBuffer_alloc ha,
    if_pos (isEmpty_iff_len.2 hlen)]
  rfl

/-- Every command but DESTROY keeps a buffer that meets R26. -/
theorem exec_keeps_bufferOk {i : Instr} {s t : State} (h : exec i s = .next t) (hi : i ≠ .destroy)
    (ha : s.alloc = true) (hok : BufferOk s) : t.alloc = true ∧ BufferOk t := by
  cases exec_effect h with
  | answer r => exact ⟨ha, hok⟩
  | init hc => exact ⟨rfl, bufferOk_createBuffer hc⟩
  | destroy => exact absurd rfl hi
  | wrat _ h0 hp => exact ⟨ha, bufferOk_write _ hok (by omega)⟩
  | clear => exact ⟨ha, bufferOk_clearBuffer (s := s) hok⟩
  | enq _ _ hw => exact ⟨ha, bufferOk_advanceWrite (bufferOk_write _ hok hw)⟩
  | deq => exact ⟨ha, bufferOk_advanceRead hok⟩

theorem capacity_kept {i : Instr} {s t : State} (h : exec i s = .next t) (hi : ∀ c, i ≠ .init c) :
    t.capacity = s.capacity := by
  cases exec_effect h with
  | init => exact absurd rfl (hi _)
  | answer | destroy | wrat | clear | enq | deq => rfl

/-! ### The length as a cursor moves -/

/-- The length is the only number below `capacity` that leads from `rd_ptr` to `wr_ptr` (R27). -/
theorem len_eq_of_mod {s : State} {n : Nat} (hr : s.rdPtr < s.capacity) (hw : s.wrPtr < s.capacity)
    (hn : n < s.capacity) (h : (s.rdPtr + n) % s.capacity = s.wrPtr) : len s = n := by
  have hmod : len s ≡ n [MOD s.capacity] :=
    Nat.ModEq.add_left_cancel' s.rdPtr ((wrPtr_eq hr hw).trans h.symm)
  exact hmod.eq_of_lt_of_lt (len_lt (Nat.zero_lt_of_lt hr)) hn

theorem len_advanceWrite {s : State} (hr : s.rdPtr < s.capacity) (hw : s.wrPtr < s.capacity)
    (hlen : len s ≠ s.capacity - 1) : len (advanceWrite s) = len s + 1 := by
  have hpos : 0 < s.capacity := Nat.zero_lt_of_lt hr
  have hlt : len s < s.capacity := len_lt hpos
  refine len_eq_of_mod (s := advanceWrite s) hr (nextCursor_lt hpos) (n := len s + 1) ?_ ?_
  · rw [advanceWrite_capacity]
    omega
  · rw [advanceWrite_rdPtr, advanceWrite_capacity, advanceWrite_wrPtr, nextCursor, ← wrPtr_eq hr hw,
      Nat.mod_add_mod, add_assoc]

theorem len_advanceRead {s : State} (hr : s.rdPtr < s.capacity) (hw : s.wrPtr < s.capacity)
    (hlen : len s ≠ 0) : len s = len (advanceRead s) + 1 := by
  have hpos : 0 < s.capacity := Nat.zero_lt_of_lt hr
  have hlt : len s < s.capacity := len_lt hpos
  obtain ⟨n, hn⟩ := Nat.exists_eq_add_one_of_ne_zero hlen
  have hmod : (nextCursor s.capacity s.rdPtr + n) % s.capacity = s.wrPtr := by
    rw [nextCursor, Nat.mod_add_mod, add_right_comm, add_assoc, ← hn, wrPtr_eq hr hw]
  rw [hn, len_eq_of_mod (s := advanceRead s) (nextCursor_lt hpos) hw (by rw [advanceRead_capacity]; omega) hmod]

/-! ### The queue -/

@[simp] theorem length_queue (s : State) : (queue s).length = len s := by
  rw [queue, List.length_map, List.length_range]

theorem queue_eq_nil_iff {s : State} : queue s = [] ↔ len s = 0 := by
  rw [← List.length_eq_zero_iff, length_queue]

/-- No queued byte stands in the slot that `wr_ptr` names. -/
theorem queuedSlot_ne_wrPtr {s : State} (hr : s.rdPtr < s.capacity) (hw : s.wrPtr < s.capacity) {i : Nat}
    (hi : i < len s) : queuedSlot s i ≠ s.wrPtr := by
  intro he
  have hlt : len s < s.capacity := len_lt (Nat.zero_lt_of_lt hr)
  exact hi.ne' (len_eq_of_mod hr hw (hi.trans hlt) he)

/-- Storing at `wr_ptr` and advancing it appends the byte. -/
theorem queue_advanceWrite {s : State} (v : Byte) (hok : BufferOk s) (hlen : len s ≠ s.capacity - 1) :
    queue (advanceWrite { s with storage := s.storage.write s.wrPtr v }) = queue s ++ [v] := by
  obtain ⟨-, hr, hw, -⟩ := hok
  have hgrow : len (advanceWrite { s with storage := s.storage.write s.wrPtr v }) = len s + 1 :=
    len_advanceWrite hr hw hlen
  have hlast : queuedSlot s (len s) = s.wrPtr := wrPtr_eq hr hw
  rw [queue, hgrow, List.range_succ, List.map_append]
  refine congrArg₂ (· ++ ·) (List.map_congr_left fun i hi => ?_) (congrArg (fun b => [b]) ?_)
  · exact read_write_other _ v (queuedSlot_ne_wrPtr hr hw (List.mem_range.1 hi))
  · exact (congrArg _ hlast).trans (read_write_same _ _ v)

/-- The byte at `rd_ptr` is the oldest, and advancing `rd_ptr` leaves the others. -/
theorem queue_eq_cons {s : State} (hok : BufferOk s) (hlen : len s ≠ 0) :
    queue s = s.storage.read s.rdPtr :: queue (advanceRead s) := by
  obtain ⟨-, hr, hw, -⟩ := hok
  have hfirst : queuedSlot s 0 = s.rdPtr := Nat.mod_eq_of_lt hr
  have hnext (i : Nat) : queuedSlot s (i + 1) = queuedSlot (advanceRead s) i := by
    simp only [queuedSlot, advanceRead_rdPtr, advanceRead_capacity, nextCursor, Nat.mod_add_mod]
    rw [add_right_comm, add_assoc]
  rw [queue, len_advanceRead hr hw hlen, List.range_succ_eq_map, List.map_cons, List.map_map, hfirst]
  exact congrArg _ (List.map_congr_left fun i _ => congrArg s.storage.read (hnext i))

/-! ### The length after each command -/

theorem len_of_enq_ok {s t : State} {v : Byte} (hok : BufferOk s) (h : exec (.enq v) s = .next t)
    (hrsp : t.rsp = .status .ok) : len s + 2 ≤ s.capacity ∧ len t = len s + 1 := by
  obtain ⟨-, hr, hw, -⟩ := hok
  obtain ⟨-, ⟨-, rfl⟩ | ⟨hfull, -, rfl⟩⟩ := execEnq_next h
  · cases hrsp
  · have hpos : 0 < s.capacity := Nat.zero_lt_of_lt hr
    have hlen : len s ≠ s.capacity - 1 := mt (isFull_iff_len hpos).2 (Bool.eq_false_iff.1 hfull)
    have hlt : len s < s.capacity := len_lt hpos
    exact ⟨by omega, len_advanceWrite hr hw hlen⟩

theorem len_of_deq_byte {s t : State} {b : Byte} (hok : BufferOk s) (h : exec .deq s = .next t)
    (hrsp : t.rsp = .byte b) : len s = len t + 1 := by
  obtain ⟨-, hr, hw, -⟩ := hok
  obtain ⟨-, ⟨-, rfl⟩ | ⟨hempty, -, rfl⟩⟩ := execDeq_next h
  · cases hrsp
  · exact len_advanceRead hr hw (mt isEmpty_iff_len.2 (Bool.eq_false_iff.1 hempty))

/-- An accepted ENQ takes one byte of room (44_fifo_protocol.md R135). -/
theorem room_of_enq_ok {s t : State} {v : Byte} (hok : BufferOk s) (h : exec (.enq v) s = .next t)
    (hrsp : t.rsp = .status .ok) : room s = room t + 1 := by
  obtain ⟨hle, hlen⟩ := len_of_enq_ok hok h hrsp
  have hc : t.capacity = s.capacity := capacity_kept h nofun
  rw [room, room, hlen, hc]
  omega

theorem len_of_init_or_clear_ok {i : Instr} {s t : State} (h : exec i s = .next t)
    (hi : (∃ c, i = .init c) ∨ i = .clear) (hrsp : t.rsp = .status .ok) : len t = 0 := by
  obtain ⟨c, rfl⟩ | rfl := hi
  · obtain ⟨-, rfl⟩ | ⟨-, rfl⟩ := execInit_next h
    · exact len_of_cursors_zero rfl rfl
    · cases hrsp
  · obtain ⟨-, rfl⟩ := execClear_next h
    exact len_of_cursors_zero rfl rfl

/-- The commands that move no cursor, and every failure, keep the length. -/
theorem len_kept {i : Instr} {s t : State} (h : exec i s = .next t)
    (hi : (∃ p, i = .rdat p) ∨ (∃ p v, i = .wrat p v) ∨ i = .len ∨ i = .idle ∨
      t.rsp = .status .full ∨ t.rsp = .status .empty ∨ t.rsp = .status .invalid) : len t = len s := by
  cases exec_effect h with
  | answer | wrat | destroy => rfl
  | init | clear | enq | deq => simp at hi

/-! ### Runs -/

theorem runCommands_cons {i : Instr} {cmds : List Instr} {s t u : State} {rs : List Rsp}
    (h : exec i s = .next t) (hrun : runCommands cmds t = some (u, rs)) :
    runCommands (i :: cmds) s = some (u, t.rsp :: rs) := by
  simp only [runCommands, h, hrun, Option.map_some]

/-- A run that completes is a completed command and a run that completes. -/
theorem runCommands_cons_eq_some {i : Instr} {cmds : List Instr} {s u : State} {rs : List Rsp}
    (hrun : runCommands (i :: cmds) s = some (u, rs)) :
    ∃ t rest, exec i s = .next t ∧ runCommands cmds t = some (u, rest) ∧ rs = t.rsp :: rest := by
  unfold runCommands at hrun
  split at hrun
  · rename_i t h
    obtain ⟨⟨u', rest⟩, htail, he⟩ := Option.map_eq_some_iff.1 hrun
    cases he
    exact ⟨t, rest, h, htail, rfl⟩
  · cases hrun
  · cases hrun

/-- Each command counts by itself; `hnot` is the side condition of the model's equation for a command that
enqueues nothing. -/
theorem enqueued_cons (i : Instr) (r : Rsp) (cmds : List Instr) (rs : List Rsp) :
    enqueued (i :: cmds) (r :: rs) = enqueued [i] [r] ++ enqueued cmds rs := by
  by_cases h : (∃ v, i = .enq v) ∧ r = .status .ok
  · obtain ⟨⟨v, rfl⟩, rfl⟩ := h
    rfl
  · have hnot (v : Byte) (hi : i = .enq v) (hr : r = .status .ok) : False := h ⟨⟨v, hi⟩, hr⟩
    simp only [enqueued, List.nil_append]

/-- As `enqueued_cons`, for the bytes returned. -/
theorem dequeued_cons (i : Instr) (r : Rsp) (cmds : List Instr) (rs : List Rsp) :
    dequeued (i :: cmds) (r :: rs) = dequeued [i] [r] ++ dequeued cmds rs := by
  by_cases h : i = .deq ∧ ∃ b, r = .byte b
  · obtain ⟨rfl, b, rfl⟩ := h
    rfl
  · have hnot (b : Byte) (hi : i = .deq) (hr : r = .byte b) : False := h ⟨hi, b, hr⟩
    simp only [dequeued, List.nil_append]

end Sys2Proof.Machine
end

section
/-!
SUPPORT. The refinement step of 44_fifo_protocol.md R134, command by command, and its two readings over a
command of a run: the bytes in order, and their count.
-/
namespace Sys2Proof.Machine

/-- ENQ appends while the queue has room. -/
theorem enq_refines {s : State} (v : Byte) (ha : s.alloc = true) (hok : BufferOk s) :
    ∃ t, exec (.enq v) s = .next t ∧
      (if (queue s).length = s.capacity - 1 then t.rsp = .status .full ∧ queue t = queue s
       else t.rsp = .status .ok ∧ queue t = queue s ++ [v]) := by
  by_cases hlen : len s = s.capacity - 1
  · simp only [length_queue, if_pos hlen]
    exact ⟨_, exec_enq_of_full v ha hok hlen, rfl, rfl⟩
  · simp only [length_queue, if_neg hlen]
    exact ⟨_, exec_enq_of_room v ha hok hlen, rfl, queue_advanceWrite v hok hlen⟩

/-- DEQ of an empty queue. -/
theorem deq_of_queue_nil {s : State} (ha : s.alloc = true) (hq : queue s = []) :
    exec .deq s = .next { s with rsp := .status .empty } :=
  exec_deq_of_empty ha (queue_eq_nil_iff.1 hq)

/-- DEQ takes the first byte of the queue. -/
theorem deq_of_queue_cons {s : State} {b : Byte} {q : List Byte} (ha : s.alloc = true) (hok : BufferOk s)
    (hq : queue s = b :: q) : ∃ t, exec .deq s = .next t ∧ t.rsp = .byte b ∧ queue t = q := by
  have hlen : len s ≠ 0 := fun h0 => by simp [queue_eq_nil_iff.2 h0] at hq
  obtain ⟨hb, hrest⟩ := List.cons.inj (hq.symm.trans (queue_eq_cons hok hlen))
  exact ⟨_, exec_deq_of_queued ha hok hlen, congrArg Rsp.byte hb.symm, hrest.symm⟩

/-- RDAT writes no state, whatever it answers. -/
theorem queue_of_rdat {s t : State} {p : Int} (h : exec (.rdat p) s = .next t) : queue t = queue s := by
  obtain ⟨-, ⟨-, -, rfl⟩ | ⟨-, rfl⟩⟩ := execRdat_next h <;> rfl

/-- INIT empties the queue when it creates a buffer, and else keeps it. -/
theorem queue_of_init {s t : State} {c : Int} (h : exec (.init c) s = .next t) :
    queue t = if t.rsp = .status .ok then [] else queue s := by
  obtain ⟨-, rfl⟩ | ⟨-, rfl⟩ := execInit_next h
  · exact queue_eq_nil_iff.2 (len_of_cursors_zero rfl rfl)
  · rfl

/-- One command of a run without WRAT: what it returns and then leaves queued is what was queued and then
what it accepted. -/
theorem fifo_step {i : Instr} {s t : State} (hi : fifoOrRead i = true) (ha : s.alloc = true)
    (hok : BufferOk s) (h : exec i s = .next t) :
    dequeued [i] [t.rsp] ++ queue t = queue s ++ enqueued [i] [t.rsp] := by
  cases i with
  | idle =>
    obtain rfl := execIdle_next h
    exact (List.append_nil _).symm
  | rdat p =>
    exact (queue_of_rdat h).trans (List.append_nil _).symm
  | len =>
    obtain ⟨-, rfl⟩ := execLen_next h
    exact (List.append_nil _).symm
  | enq v =>
    obtain ⟨u, hu, hspec⟩ := enq_refines v ha hok
    cases h.symm.trans hu
    split at hspec <;> obtain ⟨hrsp, hq⟩ := hspec <;> rw [hrsp, hq]
    · exact (List.append_nil _).symm
    · rfl
  | deq =>
    cases hq : queue s with
    | nil =>
      cases h.symm.trans (deq_of_queue_nil ha hq)
      exact hq
    | cons b q =>
      obtain ⟨u, hu, hrsp, hrest⟩ := deq_of_queue_cons ha hok hq
      cases h.symm.trans hu
      rw [hrsp, hrest]
      exact (List.append_nil _).symm
  | init | destroy | wrat | clear => cases hi

/-- One command of a run that neither starts, ends nor clears a buffer: the FIFO law by lengths, and WRAT
moves no cursor. -/
theorem occupancy_step {i : Instr} {s t : State} (hi : i ≠ .clear ∧ i ≠ .destroy ∧ ∀ c, i ≠ .init c)
    (ha : s.alloc = true) (hok : BufferOk s) (h : exec i s = .next t) :
    len t + (dequeued [i] [t.rsp]).length = len s + (enqueued [i] [t.rsp]).length := by
  cases hr : fifoOrRead i with
  | true =>
    have hlaw := congrArg List.length (fifo_step hr ha hok h)
    rw [List.length_append, List.length_append, length_queue, length_queue] at hlaw
    rwa [add_comm]
  | false =>
    obtain ⟨hclear, hdestroy, hinit⟩ := hi
    cases i with
    | wrat p v => exact len_kept h (.inr (.inl ⟨p, v, rfl⟩))
    | clear => exact absurd rfl hclear
    | destroy => exact absurd rfl hdestroy
    | init c => exact absurd rfl (hinit c)
    | idle | rdat | len | enq | deq => cases hr

/-- The occupancy of R132 counted over a run, by induction on the commands. -/
theorem occupancy_run {cmds : List Instr} {s t : State} {rs : List Rsp} (ha : s.alloc = true)
    (hok : BufferOk s) (hcmds : ∀ i ∈ cmds, i ≠ .clear ∧ i ≠ .destroy ∧ ∀ c, i ≠ .init c)
    (hrun : runCommands cmds s = some (t, rs)) :
    len t + (dequeued cmds rs).length = len s + (enqueued cmds rs).length ∧ len t ≤ s.capacity - 1 := by
  induction cmds generalizing s rs with
  | nil =>
    cases hrun
    obtain ⟨-, hr, -⟩ := hok
    exact ⟨rfl, Nat.le_sub_one_of_lt (len_lt (Nat.zero_lt_of_lt hr))⟩
  | cons i cmds ih =>
    obtain ⟨u, rest, h, htail, rfl⟩ := runCommands_cons_eq_some hrun
    obtain ⟨hi, hcmds⟩ := List.forall_mem_cons.1 hcmds
    have hstep := occupancy_step hi ha hok h
    obtain ⟨-, hdestroy, hinit⟩ := hi
    obtain ⟨hua, huok⟩ := exec_keeps_bufferOk h hdestroy ha hok
    obtain ⟨hcount, hle⟩ := ih hua huok hcmds htail
    rw [dequeued_cons, enqueued_cons, List.length_append, List.length_append]
    exact ⟨by omega, capacity_kept h hinit ▸ hle⟩

/-- After the command that begins it, a run that completes. -/
theorem exists_runCommands_cons {i : Instr} {cmds : List Instr} {s t : State} {rs rest : List Rsp}
    (h : exec i s = .next t) (hrun : ∃ u, runCommands cmds t = some (u, rest)) (hrs : rs = t.rsp :: rest) :
    ∃ u, runCommands (i :: cmds) s = some (u, rs) := by
  obtain ⟨u, hrun⟩ := hrun
  exact ⟨u, hrs ▸ runCommands_cons h hrun⟩

/-- ENQs in a row: the first `room` of them answer `OK`, the others `FULL` (R135). -/
theorem run_enqs (vs : List Byte) {s : State} (ha : s.alloc = true) (hok : BufferOk s) :
    ∃ t, runCommands (vs.map .enq) s =
      some (t, List.replicate (min vs.length (room s)) (.status .ok) ++
               List.replicate (vs.length - room s) (.status .full)) := by
  induction vs generalizing s with
  | nil => exact ⟨s, by simp [runCommands]⟩
  | cons v vs ih =>
    by_cases hlen : len s = s.capacity - 1
    · have h := exec_enq_of_full v ha hok hlen
      have hroom : room s = 0 := by rw [room, hlen, Nat.sub_self]
      refine exists_runCommands_cons h (ih (s := { s with rsp := .status .full }) ha hok) ?_
      simp [hroom, show room { s with rsp := .status .full } = 0 from hroom, List.replicate_succ]
    · have h := exec_enq_of_room v ha hok hlen
      have hroom := room_of_enq_ok hok h rfl
      obtain ⟨hta, htok⟩ := exec_keeps_bufferOk h (by simp) ha hok
      refine exists_runCommands_cons h (ih hta htok) ?_
      simp [hroom, List.replicate_succ]

/-- DEQs in a row: the queued bytes in order, then `EMPTY` (R135). -/
theorem run_deqs (n : Nat) {s : State} (ha : s.alloc = true) (hok : BufferOk s) :
    ∃ t, runCommands (List.replicate n .deq) s =
      some (t, ((queue s).take n).map .byte ++ List.replicate (n - len s) (.status .empty)) := by
  induction n generalizing s with
  | zero => exact ⟨s, by simp [runCommands]⟩
  | succ n ih =>
    rw [← length_queue]
    cases hq : queue s with
    | nil =>
      have h := deq_of_queue_nil ha hq
      refine exists_runCommands_cons h (ih (s := { s with rsp := .status .empty }) ha hok) ?_
      simp [← length_queue, show queue { s with rsp := .status .empty } = [] from hq, List.replicate_succ]
    | cons b q =>
      obtain ⟨t, h, hrsp, rfl⟩ := deq_of_queue_cons ha hok hq
      obtain ⟨hta, htok⟩ := exec_keeps_bufferOk h (by simp) ha hok
      refine exists_runCommands_cons h (ih hta htok) ?_
      simp [hrsp]

end Sys2Proof.Machine
end

section
/-! PROOFS. The statements of 44_fifo_protocol.md. -/
namespace Sys2Proof.Machine

/-- Settles O47: the refinement step of each queue operation. -/
theorem blockRefinesABoundedQueue : Obligations.BlockRefinesABoundedQueue := by
  intro s ha hok
  refine ⟨length_queue s, fun v => enq_refines v ha hok, ?_, ?_, ?_, fun p => ?_, fun _ _ h => queue_of_init h⟩
  · cases hq : queue s with
    | nil => exact ⟨_, deq_of_queue_nil ha hq, rfl, hq⟩
    | cons b q => exact deq_of_queue_cons ha hok hq
  · exact ⟨_, requireBuffer_alloc ha, congrArg Rsp.len (length_queue s).symm, rfl⟩
  · exact ⟨_, execClear_alloc ha, rfl, queue_eq_nil_iff.2 (len_of_cursors_zero rfl rfl)⟩
  · obtain ⟨t, h⟩ := execRdat_completes ha p
    exact ⟨t, h, queue_of_rdat h⟩

/-- Settles O48, by induction on the commands: the law of one command, then that of the rest of the run. -/
theorem fifoOrderOverRuns : Obligations.FifoOrderOverRuns := by
  intro cmds
  induction cmds with
  | nil => exact fun s ha hok _ => ⟨s, [], rfl, ha, hok, (List.append_nil _).symm⟩
  | cons i cmds ih =>
    intro s ha hok hcmds
    obtain ⟨hi, hrest⟩ := List.forall_mem_cons.1 hcmds
    have ⟨_, hr, hw, _⟩ := hok
    obtain ⟨t, h⟩ := exec_completes ha hr hw i
    have hne : i ≠ .destroy := by
      rintro rfl
      cases hi
    obtain ⟨hta, htok⟩ := exec_keeps_bufferOk h hne ha hok
    obtain ⟨u, rs, hrun, hua, huok, hlaw⟩ := ih t hta htok hrest
    refine ⟨u, _, runCommands_cons h hrun, hua, huok, ?_⟩
    calc dequeued (i :: cmds) (t.rsp :: rs) ++ queue u
        = dequeued [i] [t.rsp] ++ (dequeued cmds rs ++ queue u) := by
          rw [dequeued_cons, List.append_assoc]
      _ = dequeued [i] [t.rsp] ++ queue t ++ enqueued cmds rs := by rw [hlaw, List.append_assoc]
      _ = queue s ++ enqueued [i] [t.rsp] ++ enqueued cmds rs := by rw [fifo_step hi ha hok h]
      _ = queue s ++ enqueued (i :: cmds) (t.rsp :: rs) := by rw [List.append_assoc, ← enqueued_cons]

/-- Settles O8: ENQ on either side of its test, and the words of ENQ. -/
theorem enqAppendsOrReportsFull : Obligations.EnqAppendsOrReportsFull := by
  refine ⟨fun s v ha hok hlen => ?_, fun s v ha hok hlen => exec_enq_of_full v ha hok hlen,
    fun _ _ ha => requireBuffer_unalloc ha, fun _ w h => decode_eq_iff.2 (.enq h (cwData_eq_ofNat w))⟩
  exact ⟨_, exec_enq_of_room v ha hok hlen, read_write_same _ _ v, fun _ hne => read_write_other _ v hne⟩

/-- Settles O9: DEQ on either side of its test, and the words of DEQ. -/
theorem deqRemovesOldestOrReportsEmpty : Obligations.DeqRemovesOldestOrReportsEmpty :=
  ⟨fun _ ha hok hlen => exec_deq_of_queued ha hok hlen, fun _ ha hlen => exec_deq_of_empty ha hlen,
    fun _ ha => requireBuffer_unalloc ha, fun _ _ h => decode_eq_iff.2 (.deq h), fun _ => rfl⟩

/-- Settles O37: the mask of a power of two is the remainder. -/
theorem cursorIncrementForms : Obligations.CursorIncrementForms := by
  intro k x hx
  refine ⟨?_, Nat.and_two_pow_sub_one_eq_mod (x + 1) k⟩
  obtain ⟨h, e⟩ | ⟨h, e⟩ := nextCursor_cases hx
  · rw [e, if_pos (Nat.lt_sub_of_add_lt h)]
  · rw [e, if_neg (by omega)]

/-- Settles O46: the length after each command, and the count over a run. -/
theorem occupancyAccounting : Obligations.OccupancyAccounting := by
  refine ⟨fun i s t ha hok h => ⟨?_, ?_, fun hi => len_of_init_or_clear_ok h hi, len_kept h⟩,
    fun _ _ _ _ ha hok hcmds hrun => occupancy_run ha hok hcmds hrun⟩
  · rintro v rfl hrsp
    exact len_of_enq_ok hok h hrsp
  · rintro b rfl hrsp
    have hlen := len_of_deq_byte hok h hrsp
    omega

/-- Settles O49: the two rows of commands, and a DEQ from a full buffer leaves `capacity - 2` bytes. -/
theorem usableCapacityIsCapacityMinusOne : Obligations.UsableCapacityIsCapacityMinusOne := by
  refine fun s ha hok => ⟨fun vs => run_enqs vs ha hok, fun n => run_deqs n ha hok, fun t b hfull h hb => ?_⟩
  have hlen : len s = len t + 1 := len_of_deq_byte hok h hb
  have hc : t.capacity = s.capacity := capacity_kept h nofun
  rw [room, hc, ← hfull, hlen, Nat.add_sub_cancel_left]

end Sys2Proof.Machine
end

section
/-! PROOFS. The statements of 45_idle.md. -/
namespace Sys2Proof.Machine

/-- A store does not see the response of the cycle before it, if what follows it does not. -/
theorem storeThen_with_rsp {k : State → Result} (hk : ∀ t r, k { t with rsp := r } = k t) (s : State) (r : Rsp)
    (a : Nat) (v : Byte) : storeThen { s with rsp := r } a v k = storeThen s a v k := by
  by_cases h : HasSlot s a
  · rw [storeThen_inside h, storeThen_inside (s := { s with rsp := r }) h]
    exact hk { s with storage := s.storage.write a v } r
  · rw [storeThen_outside h, storeThen_outside (s := { s with rsp := r }) h]

/-- No instruction sees the response of the cycle before it, and each that completes overwrites it
(45_idle.md R145). -/
theorem exec_with_rsp (i : Instr) (s : State) (r : Rsp) : exec i { s with rsp := r } = exec i s := by
  cases i with
  | idle | init _ | destroy | rdat _ | clear | len | deq => rfl
  | wrat p v =>
    change execWrat p v { s with rsp := r } = execWrat p v s
    unfold execWrat
    rw [absoluteSlot_congr (s := { s with rsp := r }) (t := s) rfl p]
    refine congrArg (requireBuffer s) ?_
    cases absoluteSlot s p with
    | none => rfl
    | some a => exact storeThen_with_rsp (fun _ _ => rfl) s r a v
  | enq v =>
    refine congrArg (requireBuffer s) (if_congr Iff.rfl rfl ?_)
    exact storeThen_with_rsp (k := fun t => succeed (advanceWrite t)) (fun _ _ => rfl) s r s.wrPtr v

/-- Settles O1: IDLE writes only the response, which no command sees; in the reset state every
instruction but IDLE and INIT faults. -/
theorem idleKeepsEverything : Obligations.IdleKeepsEverything := by
  refine ⟨fun _ => rfl, fun _ _ h => decode_eq_iff.2 (.idle h), fun _ => rfl, fun s t i h => ?_, fun i h => ?_,
    execInit_completes⟩
  · obtain rfl := execIdle_next h
    exact exec_with_rsp i s .noResponse
  · obtain ⟨-, -, hreset⟩ := resetHoldsNoBuffer
    obtain hidle | hinit | hfault := hreset i
    · exact .inl hidle
    · exact .inr hinit
    · obtain ⟨t, ht⟩ := h State.reset
      cases hfault.symm.trans ht

end Sys2Proof.Machine
end

section
/-! SUPPORT. The words of an instruction that a cycle's decision order or a failure condition names (R73). -/
namespace Sys2Proof

theorem decode_eq_idle_iff {opw w : Nat} : decode opw w = .idle ↔ w % 2 = 0 :=
  decode_eq_iff.trans ⟨fun | .idle h => h, .idle⟩

theorem decode_eq_init_iff {opw w : Nat} {c : Int} :
    decode opw w = .init c ↔ w % 16 = 1 ∧ cwInt opw w = c :=
  decode_eq_iff.trans ⟨fun | .init h hc => ⟨h, hc⟩, fun ⟨h, hc⟩ => .init h hc⟩

theorem decode_eq_rdat_iff {opw w : Nat} {p : Int} :
    decode opw w = .rdat p ↔ w % 16 = 5 ∧ cwInt opw w = p :=
  decode_eq_iff.trans ⟨fun | .rdat h hp => ⟨h, hp⟩, fun ⟨h, hp⟩ => .rdat h hp⟩

theorem exists_decode_eq_wrat_iff {opw w : Nat} {p : Int} :
    (∃ v, decode opw w = .wrat p v) ↔ w % 16 = 7 ∧ cwInt opw w = p := by
  simp only [decode_eq_iff]
  exact ⟨fun | ⟨_, .wrat h hp _⟩ => ⟨h, hp⟩, fun ⟨h, hp⟩ => ⟨_, .wrat h hp rfl⟩⟩

theorem exists_decode_eq_enq_iff {opw w : Nat} : (∃ v, decode opw w = .enq v) ↔ w % 16 = 13 := by
  simp only [decode_eq_iff]
  exact ⟨fun | ⟨_, .enq h _⟩ => h, fun h => ⟨_, .enq h rfl⟩⟩

theorem decode_eq_deq_iff {opw w : Nat} : decode opw w = .deq ↔ w % 16 = 15 :=
  decode_eq_iff.trans ⟨fun | .deq h => h, .deq⟩

/-- The presented command is neither IDLE nor INIT exactly when `valid = 1` and `op` is not INIT's. -/
theorem decode_ne_idle_and_ne_init_iff {opw w : Nat} :
    (decode opw w ≠ .idle ∧ ∀ c, decode opw w ≠ .init c) ↔ w % 2 = 1 ∧ w % 16 ≠ 1 := by
  simp only [ne_eq, decode_eq_idle_iff, decode_eq_init_iff, not_and, Nat.mod_two_ne_zero]
  exact and_congr_right fun _ => ⟨fun h h1 => h _ h1 rfl, fun h _ h1 => absurd h1 h⟩

end Sys2Proof
end

section
/-!
SUPPORT. The failures of an instruction that completes, and the fault of use while unallocated
(60_exceptions.md R150 to R152).
-/
namespace Sys2Proof.Machine

/-! ### Failures -/

/-- `Fails s i e`: the own check of the instruction `i` fails in `s` with the status `e`. One constructor for
each condition of R150. -/
inductive Fails (s : State) : Instr → Status → Prop where
  | init {c : Int} : capacityOk s.params c = false → Fails s (.init c) .invalid
  | rdat {p : Int} : (p < 0 ∨ (s.capacity : Int) ≤ p) → Fails s (.rdat p) .invalid
  | wrat {p : Int} {v : Byte} : (p < 0 ∨ (s.capacity : Int) ≤ p) → Fails s (.wrat p v) .invalid
  | enq {v : Byte} : isFull s = true → Fails s (.enq v) .full
  | deq : isEmpty s = true → Fails s .deq .empty

/-- A status other than `OK` tells that the instruction's check failed, and that nothing else was written. -/
theorem exec_answers_failure {i : Instr} {s t : State} {e : Status} (h : exec i s = .next t)
    (hrsp : t.rsp = .status e) (he : e ≠ .ok) : Fails s i e ∧ t = { s with rsp := .status e } := by
  cases i with
  | idle =>
    obtain rfl := execIdle_next h
    cases hrsp
  | init c =>
    obtain ⟨-, rfl⟩ | ⟨hc, rfl⟩ := execInit_next h <;> cases hrsp
    · exact absurd rfl he
    · exact ⟨.init hc, rfl⟩
  | destroy =>
    obtain ⟨-, rfl⟩ := execDestroy_next h
    cases hrsp
  | rdat p =>
    obtain ⟨-, ⟨-, -, rfl⟩ | ⟨hp, rfl⟩⟩ := execRdat_next h <;> cases hrsp
    exact ⟨.rdat hp, rfl⟩
  | wrat p v =>
    obtain ⟨-, ⟨-, -, rfl⟩ | ⟨hp, rfl⟩⟩ := execWrat_next h <;> cases hrsp
    · exact absurd rfl he
    · exact ⟨.wrat hp, rfl⟩
  | clear =>
    obtain ⟨-, rfl⟩ := execClear_next h
    cases hrsp
    exact absurd rfl he
  | len =>
    obtain ⟨-, rfl⟩ := execLen_next h
    cases hrsp
  | enq v =>
    obtain ⟨-, ⟨hfull, rfl⟩ | ⟨-, -, rfl⟩⟩ := execEnq_next h <;> cases hrsp
    · exact ⟨.enq hfull, rfl⟩
    · exact absurd rfl he
  | deq =>
    obtain ⟨-, ⟨hempty, rfl⟩ | ⟨-, -, rfl⟩⟩ := execDeq_next h <;> cases hrsp
    exact ⟨.deq hempty, rfl⟩

/-- An instruction that completes although its check fails answers the status of that check. -/
theorem Fails.rsp_eq {i : Instr} {s t : State} {e : Status} (hf : Fails s i e) (h : exec i s = .next t) :
    t.rsp = .status e := by
  cases hf with
  | init hc =>
    obtain ⟨hok, -⟩ | ⟨-, rfl⟩ := execInit_next h
    · cases hc.symm.trans hok
    · rfl
  | rdat hp =>
    obtain ⟨-, ⟨h0, hlt, -⟩ | ⟨-, rfl⟩⟩ := execRdat_next h
    · omega
    · rfl
  | wrat hp =>
    obtain ⟨-, ⟨h0, hlt, -⟩ | ⟨-, rfl⟩⟩ := execWrat_next h
    · omega
    · rfl
  | enq hfull =>
    obtain ⟨-, ⟨-, rfl⟩ | ⟨hroom, -⟩⟩ := execEnq_next h
    · rfl
    · cases hfull.symm.trans hroom
  | deq hempty =>
    obtain ⟨-, ⟨-, rfl⟩ | ⟨hqueued, -⟩⟩ := execDeq_next h
    · rfl
    · cases hempty.symm.trans hqueued

theorem rsp_eq_status_iff_fails {i : Instr} {s t : State} {e : Status} (h : exec i s = .next t)
    (he : e ≠ .ok) : t.rsp = .status e ↔ Fails s i e :=
  ⟨fun hrsp => (exec_answers_failure h hrsp he).1, fun hf => hf.rsp_eq h⟩

theorem fails_invalid_iff {i : Instr} {s : State} : Fails s i .invalid ↔
    (∃ c, i = .init c ∧ ¬ (0 < c ∧ (∃ k : Nat, c = 2 ^ k) ∧ c ≤ 2 ^ s.params.maxLog2)) ∨
    (∃ p, (i = .rdat p ∨ ∃ v, i = .wrat p v) ∧ (p < 0 ∨ (s.capacity : Int) ≤ p)) := by
  simp only [← capacityOk_iff, Bool.not_eq_true]
  constructor
  · rintro (hc | hp | hp)
    · exact .inl ⟨_, rfl, hc⟩
    · exact .inr ⟨_, .inl rfl, hp⟩
    · exact .inr ⟨_, .inr ⟨_, rfl⟩, hp⟩
  · rintro (⟨c, rfl, hc⟩ | ⟨p, rfl | ⟨v, rfl⟩, hp⟩)
    · exact .init hc
    · exact .rdat hp
    · exact .wrat hp

theorem fails_empty_iff {i : Instr} {s : State} : Fails s i .empty ↔ i = .deq ∧ len s = 0 := by
  rw [← isEmpty_iff_len]
  exact ⟨fun | .deq h => ⟨rfl, h⟩, fun ⟨hi, h⟩ => hi ▸ .deq h⟩

theorem fails_full_iff {i : Instr} {s : State} :
    Fails s i .full ↔ (∃ v, i = .enq v) ∧ (len s : Int) = s.capacity - 1 := by
  rw [← decide_eq_true_iff (p := (len s : Int) = s.capacity - 1)]
  exact ⟨fun | .enq h => ⟨⟨_, rfl⟩, h⟩, fun ⟨⟨_, hi⟩, h⟩ => hi ▸ .enq h⟩

/-- The failure statuses by the word of a command other than INIT: the operation's own check, read from the
low nibble and the signed operand (R73, R154). -/
theorem failureStatuses_of_word {s t : State} {w : Nat} (h : exec (decode s.params.opw w) s = .next t)
    (hinit : w % 16 ≠ 1) (hc : 0 < s.capacity) :
    (t.rsp = .status .invalid ↔ (w % 16 = 5 ∨ w % 16 = 7) ∧
      (cwInt s.params.opw w < 0 ∨ (s.capacity : Int) ≤ cwInt s.params.opw w)) ∧
    (t.rsp = .status .full ↔ w % 16 = 13 ∧ len s = s.capacity - 1) ∧
    (t.rsp = .status .empty ↔ w % 16 = 15 ∧ len s = 0) := by
  have hcapacity : (len s : Int) = s.capacity - 1 ↔ len s = s.capacity - 1 := by omega
  rw [rsp_eq_status_iff_fails h (e := .invalid) nofun, fails_invalid_iff,
    rsp_eq_status_iff_fails h (e := .full) nofun, fails_full_iff, exists_decode_eq_enq_iff, hcapacity,
    rsp_eq_status_iff_fails h (e := .empty) nofun, fails_empty_iff, decode_eq_deq_iff]
  simp [decode_eq_init_iff, hinit, decode_eq_rdat_iff, exists_decode_eq_wrat_iff, ← or_and_right]

/-! ### The fault of use while unallocated -/

theorem ne_fault_of_completes {r : Result} {f : Fault} (h : ∃ t, r = .next t) : r ≠ .fault f := by
  obtain ⟨t, rfl⟩ := h
  nofun

theorem loadThen_ne_useWhileUnallocated {s : State} {a : Nat} {k : Byte → Result}
    (hk : ∀ b, k b ≠ .fault .useWhileUnallocated) : loadThen s a k ≠ .fault .useWhileUnallocated := by
  by_cases h : HasSlot s a
  · rw [loadThen_inside h]
    exact hk _
  · rw [loadThen_outside h]
    nofun

theorem storeThen_ne_useWhileUnallocated {s : State} {a : Nat} {v : Byte} {k : State → Result}
    (hk : ∀ t, k t ≠ .fault .useWhileUnallocated) : storeThen s a v k ≠ .fault .useWhileUnallocated := by
  by_cases h : HasSlot s a
  · rw [storeThen_inside h]
    exact hk _
  · rw [storeThen_outside h]
    nofun

/-- With a buffer no instruction raises that fault, sound or not: a cursor out of range is another one. -/
theorem exec_alloc_ne_useWhileUnallocated {s : State} (ha : s.alloc = true) (i : Instr) :
    exec i s ≠ .fault .useWhileUnallocated := by
  have hguard {k : Result} (hk : k ≠ .fault .useWhileUnallocated) :
      requireBuffer s k ≠ .fault .useWhileUnallocated := by rwa [requireBuffer_alloc ha]
  cases i with
  | idle => nofun
  | init c => exact ne_fault_of_completes (execInit_completes c s)
  | destroy | clear | len => exact hguard nofun
  | rdat p => exact ne_fault_of_completes (execRdat_completes ha p)
  | wrat p v => exact ne_fault_of_completes (execWrat_completes ha p v)
  | enq v =>
    refine hguard ?_
    split
    · nofun
    · exact storeThen_ne_useWhileUnallocated nofun
  | deq =>
    refine hguard ?_
    split
    · nofun
    · exact loadThen_ne_useWhileUnallocated nofun

theorem exec_eq_useWhileUnallocated_iff {i : Instr} {s : State} :
    exec i s = .fault .useWhileUnallocated ↔ s.alloc = false ∧ i ≠ .idle ∧ ∀ c, i ≠ .init c := by
  refine ⟨fun h => ⟨?_, ?_, ?_⟩, fun ⟨ha, hidle, hinit⟩ => exec_unalloc ha hidle hinit⟩
  · exact Bool.eq_false_iff.2 fun ha => exec_alloc_ne_useWhileUnallocated ha i h
  · rintro rfl
    cases h
  · rintro c rfl
    exact ne_fault_of_completes (execInit_completes c s) h

/-- The operations R152 names are all but IDLE, which is no operation, and INIT. -/
theorem ne_idle_and_ne_init_iff {i : Instr} : (i ≠ .idle ∧ ∀ c, i ≠ .init c) ↔
    i = .destroy ∨ (∃ p, i = .rdat p) ∨ (∃ p v, i = .wrat p v) ∨ i = .clear ∨ i = .len ∨
      (∃ v, i = .enq v) ∨ i = .deq := by
  cases i <;> simp

end Sys2Proof.Machine
end

section
/-! PROOFS. The statements of 60_exceptions.md. -/
namespace Sys2Proof.Machine

/-- Settles O27: each status is answered exactly when a check fails with it. -/
theorem failureStatusesExactlyWhen : Obligations.FailureStatusesExactlyWhen :=
  ⟨fun _ _ _ h => ⟨(rsp_eq_status_iff_fails h (e := .invalid) nofun).trans fails_invalid_iff,
    (rsp_eq_status_iff_fails h (e := .empty) nofun).trans fails_empty_iff,
    (rsp_eq_status_iff_fails h (e := .full) nofun).trans fails_full_iff⟩, fun _ => rfl⟩

/-- Settles O28: a failure drives the response only, and no instruction sees the response of the cycle
before it. -/
theorem failureChangesNothing : Obligations.FailureChangesNothing := by
  refine ⟨fun i s t e h hrsp he => ?_, exec_with_rsp⟩
  obtain ⟨-, rfl⟩ := exec_answers_failure h hrsp he
  exact ⟨rfl, (exec_with_rsp i s (.status e)).trans h⟩

/-- Settles O29: the operations of R152 are all but IDLE and INIT, and so are the words with `valid = 1` and
`op` not 0. -/
theorem useWhileUnallocatedExactlyWhen : Obligations.UseWhileUnallocatedExactlyWhen := by
  refine ⟨fun i s => ?_, fun s x rest hin => ?_⟩
  · rw [exec_eq_useWhileUnallocated_iff, ne_idle_and_ne_init_iff]
  · cases hx : x.rst
    · rw [step_of_command hin hx, exec_eq_useWhileUnallocated_iff, decode_ne_idle_and_ne_init_iff,
        cwValid_eq, cwOp_eq]
      have hop : x.cw % 2 = 1 → (x.cw % 16 ≠ 1 ↔ x.cw / 2 % 8 ≠ 0) := by omega
      constructor
      · rintro ⟨ha, hvalid, hne⟩
        exact ⟨rfl, hvalid, ha, (hop hvalid).1 hne⟩
      · rintro ⟨-, hvalid, ha, hne⟩
        exact ⟨ha, hvalid, (hop hvalid).2 hne⟩
    · rw [step_of_reset hin hx]
      exact iff_of_false nofun nofun

/-- Settles O31: the cursors of a buffer that meets R26 are in range, which is all that completion asks. -/
theorem everyInstructionCompletesWhileAllocated : Obligations.EveryInstructionCompletesWhileAllocated := by
  rintro i s (⟨ha, -, hr, hw, -⟩ | rfl | ⟨c, rfl⟩)
  · exact exec_completes ha hr hw i
  · exact ⟨_, rfl⟩
  · exact execInit_completes c s

/-- Settles O26: one equation of the step for each decision, and for the last the instruction's completion
and its own check. -/
theorem decisionOrderOfACycle : Obligations.DecisionOrderOfACycle := by
  intro s x rest hin
  refine ⟨fun hx => ?_, fun hx hidle => ?_, fun hx hinit => ?_, fun hx hvalid hinit ha => ?_,
    fun hx hvalid hinit ha hok => ?_⟩
  · exact ⟨_, step_of_reset hin hx, rfl, rfl⟩
  · rw [step_of_command hin hx, decode_eq_idle_iff.2 hidle]
    rfl
  · rw [step_of_command hin hx, decode_eq_init_iff.2 ⟨hinit, rfl⟩]
    exact ⟨rfl, execInit_completes _ _⟩
  · rw [step_of_command hin hx, exec_eq_useWhileUnallocated_iff, decode_ne_idle_and_ne_init_iff]
    exact ⟨ha, hvalid, hinit⟩
  · obtain ⟨-, hr, hw, -⟩ := hok
    rw [step_of_command hin hx]
    obtain ⟨t, ht⟩ := exec_completes (s := { s with inputs := rest }) ha hr hw (decode s.params.opw x.cw)
    exact ⟨t, ht, failureStatuses_of_word (s := { s with inputs := rest }) ht hinit (Nat.zero_lt_of_lt hr)⟩

end Sys2Proof.Machine
end

section
/-!
SUPPORT. The pending inputs beside a command, and a run of commands as a list of presented words
(70_reset_and_hazards.md R177). The block reads its inputs in the fetch only, so an instruction answers the same
whatever is still to come.
-/
namespace Sys2Proof.Machine

/-! ### An instruction and the inputs still to come -/

/-- The outcome with the inputs still to come replaced; a stop has none. -/
def withInputs (l : List PortIn) : Result → Result
  | .next t => .next { t with inputs := l }
  | .fault f => .fault f
  | .refused r => .refused r

theorem requireBuffer_with_inputs {s : State} {l : List PortIn} {k k' : Result} (hk : k' = withInputs l k) :
    requireBuffer { s with inputs := l } k' = withInputs l (requireBuffer s k) := by
  rw [requireBuffer, requireBuffer, apply_ite (withInputs l), hk, withInputs]

theorem loadThen_with_inputs {s : State} {l : List PortIn} {k k' : Byte → Result} (a : Nat)
    (hk : ∀ b, k' b = withInputs l (k b)) :
    loadThen { s with inputs := l } a k' = withInputs l (loadThen s a k) := by
  by_cases h : HasSlot s a
  · rw [loadThen_inside h, loadThen_inside (s := { s with inputs := l }) h, hk]
  · rw [loadThen_outside h, loadThen_outside (s := { s with inputs := l }) h, withInputs]

theorem storeThen_with_inputs {s : State} {l : List PortIn} {k : State → Result} (a : Nat) (v : Byte)
    (hk : ∀ t, k { t with inputs := l } = withInputs l (k t)) :
    storeThen { s with inputs := l } a v k = withInputs l (storeThen s a v k) := by
  by_cases h : HasSlot s a
  · rw [storeThen_inside h, storeThen_inside (s := { s with inputs := l }) h]
    exact hk { s with storage := s.storage.write a v }
  · rw [storeThen_outside h, storeThen_outside (s := { s with inputs := l }) h, withInputs]

/-- No instruction sees or writes the inputs still to come (00_scope.md R8). -/
theorem exec_with_inputs (i : Instr) (s : State) (l : List PortIn) :
    exec i { s with inputs := l } = withInputs l (exec i s) := by
  cases i with
  | idle => rfl
  | init c =>
    rw [show exec (.init c) s = execInit c s from rfl, execInit, apply_ite (withInputs l)]
    rfl
  | destroy | clear | len => exact requireBuffer_with_inputs rfl
  | rdat p =>
    refine requireBuffer_with_inputs ?_
    rw [absoluteSlot_congr (s := { s with inputs := l }) (t := s) rfl p]
    cases absoluteSlot s p with
    | none => rfl
    | some a => exact loadThen_with_inputs a fun _ => rfl
  | wrat p v =>
    refine requireBuffer_with_inputs ?_
    rw [absoluteSlot_congr (s := { s with inputs := l }) (t := s) rfl p]
    cases absoluteSlot s p with
    | none => rfl
    | some a => exact storeThen_with_inputs a v fun _ => rfl
  | enq v =>
    refine requireBuffer_with_inputs ?_
    rw [apply_ite (withInputs l)]
    refine if_congr Iff.rfl rfl ?_
    exact storeThen_with_inputs (k := fun t => succeed (advanceWrite t)) s.wrPtr v fun _ => rfl
  | deq =>
    refine requireBuffer_with_inputs ?_
    rw [apply_ite (withInputs l)]
    refine if_congr Iff.rfl rfl ?_
    exact loadThen_with_inputs s.rdPtr fun _ => rfl

/-! ### Presented words -/

/-- The first presented word's cycle runs its command beside the words that follow it. -/
theorem step_presentAll_cons (s : State) (w : Nat) (words : List Nat) :
    step (presentAll s (w :: words)) =
      withInputs (presentAll s words).inputs (exec (decode s.params.opw w) s) :=
  (step_of_command (x := { rst := false, cw := w }) rfl rfl).trans (exec_with_inputs _ s _)

theorem observe_presentAll_cons {s t : State} {w : Nat} (words : List Nat) (n : Nat)
    (h : exec (decode s.params.opw w) s = .next t) :
    observe (n + 1) (presentAll s (w :: words)) = some t.rsp :: observe n (presentAll t words) := by
  have hstep : step (presentAll s (w :: words)) = .next (presentAll t words) := by
    rw [step_presentAll_cons, h]
    rfl
  exact observe_succ_next n hstep

/-- A command that does not complete leaves its cycle without a response. -/
theorem none_mem_observe_presentAll_cons {s : State} {w : Nat} (words : List Nat) (n : Nat)
    (h : ¬∃ t, exec (decode s.params.opw w) s = .next t) :
    none ∈ observe (n + 1) (presentAll s (w :: words)) := by
  rw [observe, step_presentAll_cons]
  cases hr : exec (decode s.params.opw w) s with
  | next t => exact absurd ⟨t, hr⟩ h
  | fault f => exact List.mem_singleton_self none
  | refused r => exact List.mem_singleton_self none

/-! ### Bad runs of commands -/

/-- After a command that completes, a run is bad exactly when the rest of it is. -/
theorem runCommands_cons_eq_none_of_next {i : Instr} {cmds : List Instr} {s t : State} (h : exec i s = .next t) :
    runCommands (i :: cmds) s = none ↔ runCommands cmds t = none := by
  simp only [runCommands, h, Option.map_eq_none_iff]

theorem runCommands_cons_of_fault {i : Instr} {cmds : List Instr} {s : State} {f : Fault}
    (h : exec i s = .fault f) : runCommands (i :: cmds) s = none := by
  simp only [runCommands, h]

/-- Without a buffer and without an INIT, a run is bad exactly when it has a command other than IDLE: IDLE
leaves the block without a buffer, and the first operation faults (R171; 60_exceptions.md R152). -/
theorem runCommands_unalloc_eq_none_iff {cmds : List Instr} {s : State} (ha : s.alloc = false)
    (hinit : ∀ i ∈ cmds, ∀ c, i ≠ .init c) : runCommands cmds s = none ↔ ∃ i ∈ cmds, i ≠ .idle := by
  induction cmds generalizing s with
  | nil => exact iff_of_false nofun nofun
  | cons i cmds ih =>
    obtain ⟨hi, hrest⟩ := List.forall_mem_cons.1 hinit
    rw [List.exists_mem_cons_iff]
    by_cases hidle : i = .idle
    · subst hidle
      have htail := ih (s := { s with rsp := .noResponse }) ha hrest
      rw [runCommands_cons_eq_none_of_next (i := .idle) rfl, htail, or_iff_right (fun h => h rfl)]
    · exact iff_of_true (runCommands_cons_of_fault (exec_unalloc ha hidle hi)) (.inl hidle)

end Sys2Proof.Machine
end

section
/-! PROOFS. The statements of 70_reset_and_hazards.md. -/
namespace Sys2Proof.Machine

/-- Settles O23, by induction on the words: a command that completes leaves the run of the other words to go
on from the state it leaves, and one that does not ends both the run and the responses. -/
theorem presentedWordsRunTheirCommands : Obligations.PresentedWordsRunTheirCommands := by
  intro words
  induction words with
  | nil =>
    refine fun s => ⟨fun t rs hrun => ?_, nofun⟩
    cases hrun
    rfl
  | cons w words ih =>
    intro s
    by_cases hcompletes : ∃ t, exec (decode s.params.opw w) s = .next t
    · obtain ⟨t, ht⟩ := hcompletes
      obtain ⟨hparams, -⟩ := onlyTheseOperationsWrite _ s t ht
      obtain ⟨ihrun, ihbad⟩ := ih t
      rw [hparams] at ihrun ihbad
      rw [List.length_cons, observe_presentAll_cons words _ ht]
      refine ⟨fun u rs hrun => ?_, fun hbad => ?_⟩
      · obtain ⟨t', rest, ht', hrest, rfl⟩ := runCommands_cons_eq_some hrun
        cases ht.symm.trans ht'
        rw [ihrun u rest hrest, List.map_cons]
      · exact List.mem_cons_of_mem _ (ihbad ((runCommands_cons_eq_none_of_next ht).1 hbad))
    · refine ⟨fun u rs hrun => ?_, fun _ => none_mem_observe_presentAll_cons words _ hcompletes⟩
      obtain ⟨t, -, ht, -⟩ := runCommands_cons_eq_some hrun
      exact absurd ⟨t, ht⟩ hcompletes

/-- A run of R177 is bad exactly when the run of its commands is. -/
theorem badRun_iff {words : List Nat} :
    BadRun words ↔ runCommands (words.map (decode Params.reference.opw)) State.reset = none := by
  obtain ⟨hrun, hbad⟩ := presentedWordsRunTheirCommands words State.reset
  refine ⟨fun h => Option.eq_none_iff_forall_ne_some.2 fun ⟨t, rs⟩ hsome => ?_, hbad⟩
  rw [BadRun, hrun t rs hsome, List.mem_map] at h
  obtain ⟨r, -, hr⟩ := h
  cases hr

/-- Settles O24: the reset state has no buffer, and the words of IDLE are those with `valid = 0`. -/
theorem noOperationIsLegalBeforeInit : Obligations.NoOperationIsLegalBeforeInit := by
  intro words hwords
  have hinit : ∀ i ∈ words.map (decode Params.reference.opw), ∀ c, i ≠ .init c := by
    refine List.forall_mem_map.2 fun w hw c hc => hwords w hw ?_
    exact (decode_eq_init_iff.1 hc).1
  rw [badRun_iff, runCommands_unalloc_eq_none_iff rfl hinit]
  simp only [List.mem_map, exists_exists_and_eq_and, ne_eq, decode_eq_idle_iff, Nat.mod_two_ne_zero]

/-- Settles O50: the answer `OK` tells that INIT created its buffer, which meets R26 and has both cursors 0. -/
theorem initMakesEveryCommandLegal : Obligations.InitMakesEveryCommandLegal := by
  intro s t c _ h hok
  obtain ⟨hc, rfl⟩ | ⟨-, rfl⟩ := execInit_next h
  · have hbuf : BufferOk (createBuffer c.toNat s) := bufferOk_createBuffer hc
    exact ⟨rfl, hbuf, queue_eq_nil_iff.2 (len_of_cursors_zero rfl rfl),
      fun i => everyInstructionCompletesWhileAllocated i _ (.inl ⟨rfl, hbuf⟩)⟩
  · cases hok

/-- Settles O25: `rst` is looked at before the word (R170). -/
theorem resetCycleDropsBuffer : Obligations.ResetCycleDropsBuffer :=
  fun _ _ _ hin => ⟨_, step_of_reset hin rfl, rfl, rfl, rfl, rfl⟩

end Sys2Proof.Machine
end
